-- ==== Sys2Proof/Word.lean ====
section
/-! DEFINITION. The words of the HBU: beats, bytes, ROM words, bit-strings, and the type of a ROM image. -/

namespace Sys2Proof

/-- A byte of an encoded stream, an operand, or a data field (R9, R50, R51). -/
abbrev Byte := BitVec 8

/-- A beat on `IN`: `OP = beat[10:8]`, `ARG = beat[7:0]` (R50). -/
abbrev Beat := BitVec 11

/-- A beat on `OUT` as it stands on the channel: `KIND = beat[9:8]`, `DATA = beat[7:0]` (R51). -/
abbrev OutWord := BitVec 10

/-- A tree ROM entry: `TAG = node[16]`, `A = node[15:8]`, `B = node[7:0]` (R54). -/
abbrev NodeWord := BitVec 17

/-- The cell of a code ROM entry, wide enough for `K = 128` (`LEN_W + MAXLEN = 134`, R53). For a smaller
`K` the entry occupies the low `LEN_W + MAXLEN` bits (log 10). -/
abbrev CodeEntry := BitVec 134

/-- A bit-string, first bit first (R9). -/
abbrev Bits := List Bool

/-- A ROM image: (index, word) pairs, indices rising, no zero word; an unlisted index reads as the zero
word (R30 to R34; log 7). The whole entry is the unit of access (R37). -/
abbrev Memory (w : Nat) := List (Nat × BitVec w)

end Sys2Proof
end

