-- ==== Sys2Proof/Syntax.lean ====
section
/-! DEFINITION. The instructions: the six commands of R60 and the nine header-byte forms of R56, one
constructor per row of spec/opcode_table.json. -/

namespace Sys2Proof

/-- One constructor per row of the opcode table. The `hdr` constructors are the forms of the byte that
the first `DEC_BYTE` of a session carries; their operand is the payload field of the byte (R56). -/
inductive Instr where
  /-- `ENC_BEGIN`: opens an encode session (R70). -/
  | encBegin
  /-- `ENC_SYM s`: appends the code of the symbol with ordinal `s` (R72). -/
  | encSym (s : Byte)
  /-- `ENC_END`: packs the bit buffer and emits the stream (R76). -/
  | encEnd
  /-- `DEC_BEGIN r`: opens a decode session on the tree with root `r` (R85). -/
  | decBegin (r : Byte)
  /-- `DEC_BYTE b`: takes one byte of the encoded stream (R86). -/
  | decByte (b : Byte)
  /-- `DEC_END`: closes the encoded stream and reports (R91). -/
  | decEnd
  /-- `1xxxxxxx`: padding 1, payload `b[6:0]` (R56). -/
  | hdrPad1 (p : BitVec 7)
  /-- `01xxxxxx`: padding 2, payload `b[5:0]` (R56). -/
  | hdrPad2 (p : BitVec 6)
  /-- `001xxxxx`: padding 3, payload `b[4:0]` (R56). -/
  | hdrPad3 (p : BitVec 5)
  /-- `0001xxxx`: padding 4, payload `b[3:0]` (R56). -/
  | hdrPad4 (p : BitVec 4)
  /-- `00001xxx`: padding 5, payload `b[2:0]` (R56). -/
  | hdrPad5 (p : BitVec 3)
  /-- `000001xx`: padding 6, payload `b[1:0]` (R56). -/
  | hdrPad6 (p : BitVec 2)
  /-- `0000001x`: padding 7, payload `b[0]` (R56). -/
  | hdrPad7 (p : BitVec 1)
  /-- `00000001`: padding 8, no payload bit in this byte (R56). -/
  | hdrPad8
  /-- `00000000`: no sentinel; the fallback strips the byte (R56, R87). -/
  | hdrCorrupt
  deriving DecidableEq, Repr

end Sys2Proof
end

