-- ==== Sys2Proof/Decode.lean ====
section
/-! DEFINITION. The decoder of command beats (R60, R61), the classifier of header bytes (R56), and the
encoder, written from the same tables. -/

namespace Sys2Proof

/-- Why a beat is ILLEGAL (R61). The three reasons raise the same fault. -/
inductive Illegal where
  /-- `OP = 0b000`. -/
  | opZero
  /-- `OP = 0b111`. -/
  | opSeven
  /-- A nonzero `ARG` on `ENC_BEGIN`, `ENC_END` or `DEC_END`. -/
  | argNonzero
  deriving DecidableEq, Repr

/-- `OP = beat[10:8]` (R50). -/
def beatOp (b : Beat) : BitVec 3 := b.extractLsb' 8 3

/-- `ARG = beat[7:0]` (R50). -/
def beatArg (b : Beat) : Byte := b.extractLsb' 0 8

/-- A command without an operand: `ARG` must be zero (R57). -/
def noOperand (arg : Byte) (i : Instr) : Except Illegal Instr :=
  if arg = 0 then .ok i else .error .argNonzero

/-- `Decode(beat)`: one of the six commands, or ILLEGAL with the reason (R60, R61). It depends on the
beat alone. -/
def decode (b : Beat) : Except Illegal Instr :=
  match (beatOp b).toNat with
  | 0 => .error .opZero
  | 1 => noOperand (beatArg b) .encBegin
  | 2 => .ok (.encSym (beatArg b))
  | 3 => noOperand (beatArg b) .encEnd
  | 4 => .ok (.decBegin (beatArg b))
  | 5 => .ok (.decByte (beatArg b))
  | 6 => noOperand (beatArg b) .decEnd
  | _ => .error .opSeven

/-- The form of a header byte, by the match and mask columns of R56. -/
def headerForm (b : Byte) : Instr :=
  if b &&& 0x80 = 0x80 then .hdrPad1 (b.setWidth 7)
  else if b &&& 0xC0 = 0x40 then .hdrPad2 (b.setWidth 6)
  else if b &&& 0xE0 = 0x20 then .hdrPad3 (b.setWidth 5)
  else if b &&& 0xF0 = 0x10 then .hdrPad4 (b.setWidth 4)
  else if b &&& 0xF8 = 0x08 then .hdrPad5 (b.setWidth 3)
  else if b &&& 0xFC = 0x04 then .hdrPad6 (b.setWidth 2)
  else if b &&& 0xFE = 0x02 then .hdrPad7 (b.setWidth 1)
  else if b = 0x01 then .hdrPad8
  else .hdrCorrupt

/-- An encoded instruction: a command is an 11-bit beat (format CMD), a header form is a byte of the
stream (format HDR8). -/
inductive Encoded where
  | cmd (b : Beat)
  | hdr (b : Byte)
  deriving DecidableEq, Repr

/-- The decoder on either format. -/
def decodeWord : Encoded → Except Illegal Instr
  | .cmd b => decode b
  | .hdr b => .ok (headerForm b)

/-- The beat value `(OP << 8) | ARG` (R64). -/
def cmdBeat (op : BitVec 3) (arg : Byte) : Beat := op ++ arg

/-- The encoder: the beat of a command (R60), the byte of a header form (R56). -/
def encode : Instr → Encoded
  | .encBegin => .cmd (cmdBeat 0b001 0)
  | .encSym s => .cmd (cmdBeat 0b010 s)
  | .encEnd => .cmd (cmdBeat 0b011 0)
  | .decBegin r => .cmd (cmdBeat 0b100 r)
  | .decByte b => .cmd (cmdBeat 0b101 b)
  | .decEnd => .cmd (cmdBeat 0b110 0)
  | .hdrPad1 p => .hdr (0b1#1 ++ p)
  | .hdrPad2 p => .hdr (0b01#2 ++ p)
  | .hdrPad3 p => .hdr (0b001#3 ++ p)
  | .hdrPad4 p => .hdr (0b0001#4 ++ p)
  | .hdrPad5 p => .hdr (0b00001#5 ++ p)
  | .hdrPad6 p => .hdr (0b000001#6 ++ p)
  | .hdrPad7 p => .hdr (0b0000001#7 ++ p)
  | .hdrPad8 => .hdr 0b00000001
  | .hdrCorrupt => .hdr 0b00000000

/-- The encoded word as a number, numbered as the opcode table numbers it. -/
def Encoded.value : Encoded → Nat
  | .cmd b => b.toNat
  | .hdr b => b.toNat

/-- One row of the opcode table: the word `w` is of this row when `w & mask = match`. -/
structure Row where
  mnemonic : String
  /-- 11 for format CMD, 8 for format HDR8. -/
  width : Nat
  pattern : Nat
  mask : Nat
  deriving DecidableEq, Repr

/-- The row of each instruction (R60 and R56, their match and mask columns). -/
def Instr.row : Instr → Row
  | .encBegin => ⟨"ENC_BEGIN", 11, 0x100, 0x7FF⟩
  | .encSym _ => ⟨"ENC_SYM", 11, 0x200, 0x700⟩
  | .encEnd => ⟨"ENC_END", 11, 0x300, 0x7FF⟩
  | .decBegin _ => ⟨"DEC_BEGIN", 11, 0x400, 0x700⟩
  | .decByte _ => ⟨"DEC_BYTE", 11, 0x500, 0x700⟩
  | .decEnd => ⟨"DEC_END", 11, 0x600, 0x7FF⟩
  | .hdrPad1 _ => ⟨"HDR_PAD1", 8, 0x80, 0x80⟩
  | .hdrPad2 _ => ⟨"HDR_PAD2", 8, 0x40, 0xC0⟩
  | .hdrPad3 _ => ⟨"HDR_PAD3", 8, 0x20, 0xE0⟩
  | .hdrPad4 _ => ⟨"HDR_PAD4", 8, 0x10, 0xF0⟩
  | .hdrPad5 _ => ⟨"HDR_PAD5", 8, 0x08, 0xF8⟩
  | .hdrPad6 _ => ⟨"HDR_PAD6", 8, 0x04, 0xFC⟩
  | .hdrPad7 _ => ⟨"HDR_PAD7", 8, 0x02, 0xFE⟩
  | .hdrPad8 => ⟨"HDR_PAD8", 8, 0x01, 0xFF⟩
  | .hdrCorrupt => ⟨"HDR_CORRUPT", 8, 0x00, 0xFF⟩

/-- The word `w` matches the row. -/
def Row.matches (r : Row) (w : Nat) : Bool := w &&& r.mask == r.pattern

/-- The instruction read from a word numbered as the opcode table numbers it: up to eight bits are a
header byte (format HDR8), more are a command beat (format CMD), which has eleven bits. -/
def decodeTableWord (nbits w : Nat) : Option Instr :=
  if nbits ≤ 8 then
    if w < 2 ^ 8 then some (headerForm (BitVec.ofNat 8 w)) else none
  else if w < 2 ^ 11 then
    match decode (BitVec.ofNat 11 w) with
    | .ok i => some i
    | .error _ => none
  else none

end Sys2Proof
end

