-- ==== Sys2Proof/Config.lean ====
section
/-! DEFINITION. The configuration record of an instance (00_scope.md section 5, R26). -/

namespace Sys2Proof

/-- The configuration of one HBU instance: constant for the life of the instance (R26). `MAXLEN` and
`LEN_W` follow `K` (`Config.maxLen`, `Config.lenW` in Machine/Rom.lean). -/
structure Config where
  /-- `K`, the size of the symbol domain; `2 <= K <= 128` (R4). -/
  k : Nat
  /-- `NODES`, the number of tree ROM entries; `1 <= NODES <= 256` (R5). -/
  nodes : Nat
  /-- `BITBUF_CAP`, a natural number, or `none` for unbounded; OPEN (R7). -/
  bitbufCap : Option Nat
  /-- `CODE_ROM`, indexed by symbol ordinal (R31). -/
  codeRom : Memory 134
  /-- `TREE_ROM`, indexed by node index (R32). -/
  treeRom : Memory 17
  deriving DecidableEq, Repr

/-- The configuration `State.reset` stands on: the parameters of this hardware (R4, R5), an unbounded
bit buffer and all-zero ROMs, which R142 calls a legal configuration. DESIGN CHOICE, unsafe (log 6). -/
def Config.blank : Config :=
  { k := 128, nodes := 255, bitbufCap := none, codeRom := [], treeRom := [] }

end Sys2Proof
end

