-- ==== Sys2Proof/Machine/State.lean ====
section
/-! DEFINITION. The state of one HBU instance (10_state.md R10 to R26), the reasons a step can stop, and
the state right after power-on and reset. -/

namespace Sys2Proof.Machine

/-- `MODE` (R11), by name; its two bits are `Mode.code` (log 18). -/
inductive Mode where
  | idle
  | enc
  | dec
  | fault
  deriving DecidableEq, Repr

/-- The fault causes of R120. The block raises only `invalidBitstring` and those from `illegalCommand`
on; `emptySource` and `ioFailure` belong to the host side, `corruptPadding` is a flag. -/
inductive Cause where
  | emptySource
  | invalidBitstring
  | ioFailure
  | corruptPadding
  | illegalCommand
  | sequence
  | symbolRange
  | bufferOverflow
  | treeFault
  | decEmpty
  deriving DecidableEq, Repr

/-- `KIND` of an output beat (R52). -/
inductive Kind where
  | byte
  | sym
  | done
  | err
  deriving DecidableEq, Repr

/-- An output beat (R51); `OutBeat.word` gives its ten bits. -/
structure OutBeat where
  kind : Kind
  data : Byte
  deriving DecidableEq, Repr

/-- What the host can do to the block (70_reset_and_hazards.md section 5): send any of the 2048 beats, or
assert `rst` (R140; log 4). -/
inductive HostMove where
  | beat (b : Beat)
  | rst
  deriving DecidableEq, Repr

/-- The state (R10), with the configuration (R26; log 1) and the host's moves not yet taken (R23; log 2). -/
structure State where
  /-- `MODE`, 2 bits (R11). -/
  mode : Mode
  /-- `FAULT_CODE`, 4 bits (R12). -/
  faultCode : BitVec 4
  /-- `BITBUF`, whose length is `BITLEN` (R13). -/
  bitbuf : Bits
  /-- `ROOT`, 8 bits (R14). -/
  root : Byte
  /-- `NODE`, 8 bits, the walk pointer (R15). -/
  node : Byte
  /-- `FIRST`, 1 bit (R16). -/
  first : Bool
  /-- `CORRUPT_PAD`, 1 bit (R17). -/
  corruptPad : Bool
  /-- `MIDCODE`, 1 bit (R18). -/
  midcode : Bool
  /-- `OUT`, everything emitted since power-on, oldest first (R24). -/
  out : List OutBeat
  /-- `IN`: the host's moves not yet taken, oldest first (R23). The model's own field (log 2). -/
  inp : List HostMove
  /-- The configuration record, which no step changes (R26; log 1). -/
  cfg : Config
  deriving DecidableEq, Repr

/-- The reasons the machine stops. The faults of the spec are not among them: fault entry (R132) is a
next state. -/
inductive Fault where
  /-- Raised by `walkBit` (under `DEC_BYTE` and the header forms) in a state whose `NODE` is not the index
  of an internal node of the tree ROM: R89 defines the walk only where it is one, and R28 item 4 says
  that no reachable state is otherwise. Safe (log 8). -/
  | walkOutsideTree
  deriving DecidableEq, Repr

/-- Refusals: none is used by a meaning. -/
inductive Refusal where
  /-- Raised by an arm of `exec` whose instruction has no meaning yet. Safe. No arm is left so. -/
  | notModelled (mnemonic : String)
  deriving DecidableEq, Repr

/-- The state of an instance with configuration `c` right after power-on: the registers at the reset
values of 10_state.md section 10 (`ROOT` and `NODE`, which it leaves unspecified, at 0: DESIGN CHOICE,
unsafe, log 5), nothing emitted, nothing waiting. -/
def State.powerOn (c : Config) : State :=
  { mode := .idle, faultCode := 0, bitbuf := [], root := 0, node := 0, first := false,
    corruptPad := false, midcode := false, out := [], inp := [], cfg := c }

/-- The machine right after reset, on the configuration `Config.blank` (log 6). -/
def State.reset : State := State.powerOn Config.blank

end Sys2Proof.Machine
end

