-- ==== Sys2Proof/Machine/Flags.lean ====
section
/-! DEFINITION. Flags and codes: STATUS, MIDCODE, the fault codes, the numbers of modes and kinds, the
word of an output beat (R11, R18, R20, R51, R52, R120). -/

namespace Sys2Proof.Machine

/-- The two bits of `MODE` (R11). -/
def Mode.code : Mode → BitVec 2
  | .idle => 0
  | .enc => 1
  | .dec => 2
  | .fault => 3

/-- The 4-bit code of a fault cause (R120). Code 0 is "none". -/
def Cause.code : Cause → BitVec 4
  | .emptySource => 1
  | .invalidBitstring => 2
  | .ioFailure => 3
  | .corruptPadding => 4
  | .illegalCommand => 5
  | .sequence => 6
  | .symbolRange => 7
  | .bufferOverflow => 8
  | .treeFault => 9
  | .decEmpty => 10

/-- The two bits of `KIND` (R52). -/
def Kind.code : Kind → BitVec 2
  | .byte => 0
  | .sym => 1
  | .done => 2
  | .err => 3

/-- The ten bits of an output beat: `KIND = beat[9:8]`, `DATA = beat[7:0]` (R51). -/
def OutBeat.word (o : OutBeat) : OutWord := o.kind.code ++ o.data

/-- `STATUS = {0b000000, MIDCODE, CORRUPT_PAD}` (R20). -/
def statusByte (midcode corruptPad : Bool) : Byte :=
  0#6 ++ BitVec.ofBool midcode ++ BitVec.ofBool corruptPad

/-- `STATUS` of a state (R20): no storage of its own. -/
def status (s : State) : Byte := statusByte s.midcode s.corruptPad

/-- What `DEC_END` writes to `MIDCODE`: the walk pointer is not at the root (R18). -/
def endsMidcode (s : State) : Bool := decide (s.node ≠ s.root)

/-- The data of the `ERR` beat of a cause: `zext_8` of its code (R52, R132). -/
def errData (c : Cause) : Byte := c.code.setWidth 8

end Sys2Proof.Machine
end

