-- ==== Sys2Proof/Machine/Rom.lean ====
section
/-! DEFINITION. The two ROMs: reading an entry, building an image, the fields of an entry, and the range
conditions of a configuration (R4 to R7, R30 to R34, R53, R54). -/

namespace Sys2Proof

/-- `MemRead`: the whole entry at index `i`; an index the image does not list reads as zero (R33, R34;
log 7). -/
def Memory.read {w : Nat} : Memory w → Nat → BitVec w
  | [], _ => 0#w
  | (a, v) :: rest, i => if a = i then v else Memory.read rest i

/-- The image with entry `i` set to `v`: used by the host that builds an image, by no command (R26).
Writing zero removes the entry, so that equal ROMs are equal lists. -/
def Memory.write {w : Nat} : Memory w → Nat → BitVec w → Memory w
  | [], i, v => if v = 0#w then [] else [(i, v)]
  | (a, u) :: rest, i, v =>
    if i < a then (if v = 0#w then (a, u) :: rest else (i, v) :: (a, u) :: rest)
    else if i = a then (if v = 0#w then rest else (i, v) :: rest)
    else (a, u) :: Memory.write rest i v

/-- Indices rise strictly from `lo`, stay below `size`, and no listed word is zero. -/
def Memory.wfFrom {w : Nat} (lo size : Nat) : Memory w → Bool
  | [] => true
  | (a, v) :: rest =>
    decide (lo ≤ a) && decide (a < size) && decide (v ≠ 0#w) && Memory.wfFrom (a + 1) size rest

/-- The canonical form of the image of a ROM of `size` entries. -/
def Memory.wf {w : Nat} (size : Nat) (m : Memory w) : Bool := Memory.wfFrom 0 size m

/-- `MAXLEN = K - 1` (R6). -/
def Config.maxLen (c : Config) : Nat := c.k - 1

/-- `LEN_W`, the least `w` with `2^w > K - 1` (R6). -/
def Config.lenW (c : Config) : Nat := Nat.log2 (c.k - 1) + 1

/-- The range conditions of R4 to R7 and the canonical form of the two images, every code entry within
its `LEN_W + MAXLEN` bits (R53). -/
def Config.wf (c : Config) : Bool :=
  decide (2 ≤ c.k) && decide (c.k ≤ 128) && decide (1 ≤ c.nodes) && decide (c.nodes ≤ 256)
    && Memory.wf c.k c.codeRom && Memory.wf c.nodes c.treeRom
    && c.codeRom.all (fun cell => decide (cell.2.toNat < 2 ^ (c.lenW + c.maxLen)))

/-- `MemRead(CODE, s)` (R33). -/
def Config.codeEntry (c : Config) (s : Nat) : CodeEntry := Memory.read c.codeRom s

/-- `MemRead(TREE, i)` (R34). -/
def Config.treeNode (c : Config) (i : Nat) : NodeWord := Memory.read c.treeRom i

/-- `LEN = entry[LEN_W+MAXLEN-1 : MAXLEN]` (R53). -/
def Config.entryLen (c : Config) (e : CodeEntry) : Nat := (e.toNat >>> c.maxLen) % 2 ^ c.lenW

/-- `LEN` of the entry of symbol `s`. -/
def Config.codeLen (c : Config) (s : Nat) : Nat := c.entryLen (c.codeEntry s)

/-- The symbol `s` has a code the hardware can append: `1 <= LEN <= MAXLEN` (R53, R72). -/
def Config.hasCode (c : Config) (s : Nat) : Bool :=
  decide (1 ≤ c.codeLen s) && decide (c.codeLen s ≤ c.maxLen)

/-- A bit buffer of `n` bits is within `BITBUF_CAP` (R7, R13). -/
def Config.fits (c : Config) (n : Nat) : Bool :=
  match c.bitbufCap with
  | none => true
  | some cap => decide (n ≤ cap)

/-- `TAG = node[16]`: true for an internal node, false for a leaf (R54). -/
def nodeTag (n : NodeWord) : Bool := n.getLsbD 16

/-- Field `A = node[15:8]`: `LEFT` of an internal node (R54). -/
def nodeA (n : NodeWord) : Byte := n.extractLsb' 8 8

/-- Field `B = node[7:0]`: `RIGHT` of an internal node, `SYMBOL` of a leaf (R54). -/
def nodeB (n : NodeWord) : Byte := n.extractLsb' 0 8

/-- Index `i` is within the tree ROM and its node is internal. -/
def Config.internalAt (c : Config) (i : Nat) : Bool :=
  decide (i < c.nodes) && nodeTag (c.treeNode i)

end Sys2Proof
end

