-- ==== Sys2Proof/Machine/Operands.lean ====
section
/-! DEFINITION. Operand forms: bits of a byte, the byte of eight bits, the bits of a code, the child of a
node, and pad detection (R9, R35, R57 to R59, R87). -/

namespace Sys2Proof.Machine

/-- `[v[n-1], ..., v[1], v[0]]`: the low `n` bits of `v`, most significant first. -/
def lowBits {w : Nat} (v : BitVec w) : Nat → Bits
  | 0 => []
  | n + 1 => v.getLsbD n :: lowBits v n

/-- `Bits(b) = [b[7], ..., b[0]]` (R9, R35). -/
def bitsOf (b : Byte) : Bits := lowBits b 8

/-- The number whose binary digits are `p`, first digit most significant. -/
def bitsValue (p : Bits) : Nat := p.foldl (fun acc bit => 2 * acc + bit.toNat) 0

/-- `Byte(p)`, for a bit-string `p` of length 8 (R9, R35). -/
def byteOf (p : Bits) : Byte := BitVec.ofNat 8 (bitsValue p)

/-- `CodeBits(e)` of an entry of length `len`: `[CODE[len-1], ..., CODE[0]]` (R58). `CODE` is the low
`MAXLEN` bits of the entry (R53), so for `len <= MAXLEN` these are its low `len` bits; the bits of `CODE`
above `len` are ignored (R62). -/
def codeBits (e : CodeEntry) (len : Nat) : Bits := lowBits e len

/-- `CodeBits(CODE_ROM[s])` (R58). -/
def symbolBits (c : Config) (s : Nat) : Bits := codeBits (c.codeEntry s) (c.codeLen s)

/-- `Child(n, bit)`: `LEFT` for 0, `RIGHT` for 1 (R59). -/
def child (n : NodeWord) (bit : Bool) : Byte := if bit then nodeB n else nodeA n

/-- The first sentinel bit of a bit-string and what stands after it: the payload, and whether no
sentinel was there (R87, R88). Without one, exactly the scanned bits are stripped (the fallback). -/
def stripHeader (scanned : Bits) : Bits × Bool :=
  match scanned.findIdx? (fun bit => bit) with
  | some i => (scanned.drop (i + 1), false)
  | none => ([], true)

/-- `PadDetect(b)`: the payload bits of the header byte, and `corrupt` (R87). -/
def padDetect (b : Byte) : Bits × Bool := stripHeader (bitsOf b)

/-- The header of padding `n`: `n - 1` zeros and the sentinel (R55, R56). -/
def sentinel (n : Nat) : Bits := List.replicate (n - 1) false ++ [true]

end Sys2Proof.Machine
end

