-- ==== Sys2Proof/Machine/Ops.lean ====
section
/-! DEFINITION. The named operations over the registers, fault entry (R132), the one way out of it, reset
(R140), the mode check (R125, R131), opening a decode session, and the micro-step of the tree walk
(R89). -/

namespace Sys2Proof.Machine

/-- `MODE <- v`. -/
def State.setMode (v : Mode) (s : State) : State := { s with mode := v }
/-- `FAULT_CODE <- v`. -/
def State.setFaultCode (v : BitVec 4) (s : State) : State := { s with faultCode := v }
/-- `BITBUF <- v`. -/
def State.setBitbuf (v : Bits) (s : State) : State := { s with bitbuf := v }
/-- `ROOT <- v`. -/
def State.setRoot (v : Byte) (s : State) : State := { s with root := v }
/-- `NODE <- v`. -/
def State.setNode (v : Byte) (s : State) : State := { s with node := v }
/-- `FIRST <- v`. -/
def State.setFirst (v : Bool) (s : State) : State := { s with first := v }
/-- `CORRUPT_PAD <- v`. -/
def State.setCorruptPad (v : Bool) (s : State) : State := { s with corruptPad := v }
/-- `MIDCODE <- v`. -/
def State.setMidcode (v : Bool) (s : State) : State := { s with midcode := v }
/-- The moves waiting on `IN`. -/
def State.setInp (v : List HostMove) (s : State) : State := { s with inp := v }
/-- The configuration of another instance: used where an instance is built, by no command (R26). -/
def State.setCfg (v : Config) (s : State) : State := { s with cfg := v }
/-- `emit` of several beats, in order: the only operation on `OUT` (R9, R24). -/
def State.emitAll (v : List OutBeat) (s : State) : State := { s with out := s.out ++ v }
/-- `emit KIND(d)` (R9, R24). -/
def State.emit (k : Kind) (d : Byte) (s : State) : State := s.emitAll [⟨k, d⟩]

/-- `raise <Fault>`: fault entry, exactly as R132 lists it. Nothing is saved and nothing else changes. -/
def raise (c : Cause) (s : State) : State :=
  (((s.setBitbuf []).setFaultCode c.code).setMode .fault).emit .err (errData c)

/-- `rst`: the registers at their reset values; `OUT`, the waiting moves and the configuration stay
(R140, R141, R24; `ROOT` and `NODE` at 0, log 5). It is the only way out of mode `FAULT` (R133). -/
def applyReset (s : State) : State :=
  { State.powerOn s.cfg with out := s.out, inp := s.inp }

/-- The mode check of R125 and R131 for a command that is legal in mode `m` only: in mode `FAULT` the
beat is discarded (R133), in another mode the command raises `Sequence`. -/
def inMode (m : Mode) (body : State → Host.Outcome State Fault Refusal) (s : State) :
    Host.Outcome State Fault Refusal :=
  if s.mode = .fault then .next s
  else if s.mode = m then body s
  else .next (raise .sequence s)

/-- The register writes of `DEC_BEGIN r` (R85). -/
def openDecode (r : Byte) (s : State) : State :=
  (((((s.setMode .dec).setRoot r).setNode r).setFirst true).setCorruptPad false).setMidcode false

/-- How a micro-step of `DEC_BYTE` ends. -/
inductive Micro where
  /-- The bit is consumed; the next one follows. -/
  | next (s : State)
  /-- Fault entry has run: the command ends here (R86, R132). -/
  | raised (s : State)
  /-- The walk has no start: R89 does not define it (log 8). -/
  | stuck
  deriving DecidableEq, Repr

/-- Arriving at child `c`: `TreeFault` outside the ROM; at a leaf its `SYMBOL` field is emitted as
stored and the pointer goes back to the root; at an internal node the pointer moves there (R89). -/
def arriveAt (c : Byte) (s : State) : Micro :=
  if s.cfg.nodes ≤ c.toNat then .raised (raise .treeFault s)
  else if nodeTag (s.cfg.treeNode c.toNat) then .next (s.setNode c)
  else .next ((s.emit .sym (nodeB (s.cfg.treeNode c.toNat))).setNode s.root)

/-- `WalkBit(bit)` (R89), defined where `NODE` indexes an internal node. -/
def walkBit (bit : Bool) (s : State) : Micro :=
  if s.cfg.internalAt s.node.toNat then arriveAt (child (s.cfg.treeNode s.node.toNat) bit) s
  else .stuck

/-- The bits of a byte walked in order; the first fault ends the command and the later bits are not
looked at (R86). -/
def walkBits : Bits → State → Micro
  | [], s => .next s
  | bit :: rest, s =>
    match walkBit bit s with
    | .next s' => walkBits rest s'
    | .raised s' => .raised s'
    | .stuck => .stuck

/-- A command that ends with its last micro-step. Fault entry is a next state. -/
def Micro.outcome : Micro → Host.Outcome State Fault Refusal
  | .next s => .next s
  | .raised s => .next s
  | .stuck => .fault .walkOutsideTree

end Sys2Proof.Machine
end

