-- ==== Sys2Proof/Machine/Decoder.lean ====
section
/-! DEFINITION. The decoder commands DEC_BEGIN, DEC_BYTE, DEC_END (R85, R86, R91), over one shared
operation that takes a byte. -/

namespace Sys2Proof.Machine

/-- Strips the header of the first byte: a corrupt one sets `CORRUPT_PAD`, and `FIRST` is cleared (R86). -/
def takeHeader (corrupt : Bool) (s : State) : State :=
  ((if corrupt then s.setCorruptPad true else s)).setFirst false

/-- A byte of the stream, in mode `DEC`: `all` are its eight bits, `hdr` its payload bits and its corrupt
mark should it be the header byte (R86). -/
def takeByte (all : Bits) (hdr : Bits × Bool) (s : State) : Host.Outcome State Fault Refusal :=
  if s.first then (walkBits hdr.1 (takeHeader hdr.2 s)).outcome else (walkBits all s).outcome

/-- The checks of `DEC_BEGIN r` (R85), then its register writes. -/
def beginDecode (r : Byte) (s : State) : State :=
  if s.cfg.internalAt r.toNat then openDecode r s else raise .treeFault s

/-- The effect of `DEC_END` (R91): `STATUS` uses the `MIDCODE` just computed. -/
def closeDecode (s : State) : State :=
  if s.first then raise .decEmpty s
  else ((s.setMidcode (endsMidcode s)).emit .done (statusByte (endsMidcode s) s.corruptPad)).setMode .idle

/-- `DEC_BEGIN r` (R85). -/
def execDecBegin (r : Byte) (s : State) : Host.Outcome State Fault Refusal :=
  inMode .idle (fun s => .next (beginDecode r s)) s

/-- `DEC_BYTE b` (R86). -/
def execDecByte (b : Byte) (s : State) : Host.Outcome State Fault Refusal :=
  inMode .dec (takeByte (bitsOf b) (padDetect b)) s

/-- `DEC_END` (R91). -/
def execDecEnd (s : State) : Host.Outcome State Fault Refusal :=
  inMode .dec (fun s => .next (closeDecode s)) s

end Sys2Proof.Machine
end

