-- ==== Sys2Proof/Machine/Stream.lean ====
section
/-! DEFINITION. The pure functions of the packer and of the unpacker, and the whole-stream functions
(R71, R73, R74, R88, R90). -/

namespace Sys2Proof.Machine

/-- `PadLen(L) = 8 - (L mod 8)` (R73). -/
def padLen (l : Nat) : Nat := 8 - l % 8

/-- `Header(L) = zeros(PadLen(L) - 1) ++ [1]` (R74). -/
def header (l : Nat) : Bits := sentinel (padLen l)

/-- The first `n` bytes of a bit-string (R35). -/
def bytesOf : Nat → Bits → List Byte
  | 0, _ => []
  | n + 1, p => byteOf (p.take 8) :: bytesOf n (p.drop 8)

/-- `Pack(B)`: the `len(B) div 8 + 1` bytes of `Header(len(B)) ++ B` (R74). -/
def pack (b : Bits) : List Byte := bytesOf (b.length / 8 + 1) (header b.length ++ b)

/-- `Bits(b_0) ++ Bits(b_1) ++ ...` (R35). -/
def streamBits (bytes : List Byte) : Bits := bytes.flatMap bitsOf

/-- `Unpack(bytes)`, not defined on the empty sequence (R88). The sentinel is looked for in the first
eight bits only. -/
def unpack (bytes : List Byte) : Option (Bits × Bool) :=
  match bytes with
  | [] => none
  | _ :: _ =>
    let bits := streamBits bytes
    match (bits.take 8).findIdx? (fun bit => bit) with
    | some i => some (bits.drop (i + 1), false)
    | none => some (bits.drop 8, true)

/-- `Encode(T)` (R71), meant for a text all of whose symbols have codes. -/
def encodeText (c : Config) (text : List Byte) : Bits :=
  text.flatMap (fun t => symbolBits c t.toNat)

/-- One bit of the walk as a pure function (R90): the child, and the symbol completed there if the child
is a leaf; `none` where the walk faults or is not defined. -/
def walkStep (c : Config) (node : Byte) (bit : Bool) : Option (Byte × Option Byte) :=
  if c.internalAt node.toNat then
    let next := child (c.treeNode node.toNat) bit
    if c.nodes ≤ next.toNat then none
    else if nodeTag (c.treeNode next.toNat) then some (next, none)
    else some (next, some (nodeB (c.treeNode next.toNat)))
  else none

/-- `DecodeBits` from a given position of the walk (R90). -/
def decodeFrom (c : Config) (root : Byte) : Byte → Bits → Option (List Byte × Byte)
  | node, [] => some ([], node)
  | node, bit :: rest =>
    match walkStep c node bit with
    | none => none
    | some (next, none) => decodeFrom c root next rest
    | some (_, some sym) =>
      match decodeFrom c root root rest with
      | none => none
      | some (syms, last) => some (sym :: syms, last)

/-- `DecodeBits(root, S)` (R90): the symbols and the final position; `none` on a walk that faults. -/
def decodeBits (c : Config) (root : Byte) (bits : Bits) : Option (List Byte × Byte) :=
  decodeFrom c root root bits

end Sys2Proof.Machine
end

