-- ==== Sys2Proof/Machine/Encoder.lean ====
section
/-! DEFINITION. The encoder commands ENC_BEGIN, ENC_SYM, ENC_END (R70, R72, R76). -/

namespace Sys2Proof.Machine

/-- The register writes of `ENC_BEGIN` (R70). -/
def openEncode (s : State) : State :=
  (((s.setMode .enc).setBitbuf []).setCorruptPad false).setMidcode false

/-- The checks of `ENC_SYM s` in the order of R72 and R131, then the append. The sum of the lengths is
exact (R75). -/
def appendSymbol (sym : Byte) (s : State) : State :=
  if s.cfg.k ≤ sym.toNat then raise .symbolRange s
  else if s.cfg.hasCode sym.toNat = false then raise .invalidBitstring s
  else if s.cfg.fits (s.bitbuf.length + s.cfg.codeLen sym.toNat) = false then raise .bufferOverflow s
  else s.setBitbuf (s.bitbuf ++ symbolBits s.cfg sym.toNat)

/-- The beats of `ENC_END`: the packed bytes, byte 0 first, then `DONE(STATUS)` (R76). -/
def streamBeats (s : State) : List OutBeat :=
  (pack s.bitbuf).map (fun b => ⟨.byte, b⟩) ++ [⟨.done, status s⟩]

/-- The effect of `ENC_END` (R76). -/
def closeEncode (s : State) : State :=
  ((s.emitAll (streamBeats s)).setBitbuf []).setMode .idle

/-- `ENC_BEGIN` (R70). -/
def execEncBegin (s : State) : Host.Outcome State Fault Refusal :=
  inMode .idle (fun s => .next (openEncode s)) s

/-- `ENC_SYM s` (R72). -/
def execEncSym (sym : Byte) (s : State) : Host.Outcome State Fault Refusal :=
  inMode .enc (fun s => .next (appendSymbol sym s)) s

/-- `ENC_END` (R76). -/
def execEncEnd (s : State) : Host.Outcome State Fault Refusal :=
  inMode .enc (fun s => .next (closeEncode s)) s

end Sys2Proof.Machine
end

