-- ==== Sys2Proof/Machine/Header.lean ====
section
/-! DEFINITION. The nine header-byte forms (R56, R87): the byte of the first `DEC_BYTE` of a session, each
form with its own padding and payload field. Taken as the first byte, the form's header is stripped and
its payload walked; after the first byte the same eight bits are ordinary payload (R86; log 11, 12). -/

namespace Sys2Proof.Machine

/-- A header byte of padding `n` with payload bits `payload`: all its bits are the header and the
payload; as the first byte it yields the payload, and it is not corrupt (R55, R56). -/
def takePadded (n : Nat) (payload : Bits) (s : State) : Host.Outcome State Fault Refusal :=
  inMode .dec (takeByte (sentinel n ++ payload) (payload, false)) s

/-- `HDR_PAD1`: padding 1, payload `b[6:0]` (R56). -/
def execHdrPad1 (p : BitVec 7) (s : State) : Host.Outcome State Fault Refusal :=
  takePadded 1 (lowBits p 7) s

/-- `HDR_PAD2`: padding 2, payload `b[5:0]` (R56). -/
def execHdrPad2 (p : BitVec 6) (s : State) : Host.Outcome State Fault Refusal :=
  takePadded 2 (lowBits p 6) s

/-- `HDR_PAD3`: padding 3, payload `b[4:0]` (R56). -/
def execHdrPad3 (p : BitVec 5) (s : State) : Host.Outcome State Fault Refusal :=
  takePadded 3 (lowBits p 5) s

/-- `HDR_PAD4`: padding 4, payload `b[3:0]` (R56). -/
def execHdrPad4 (p : BitVec 4) (s : State) : Host.Outcome State Fault Refusal :=
  takePadded 4 (lowBits p 4) s

/-- `HDR_PAD5`: padding 5, payload `b[2:0]` (R56). -/
def execHdrPad5 (p : BitVec 3) (s : State) : Host.Outcome State Fault Refusal :=
  takePadded 5 (lowBits p 3) s

/-- `HDR_PAD6`: padding 6, payload `b[1:0]` (R56). -/
def execHdrPad6 (p : BitVec 2) (s : State) : Host.Outcome State Fault Refusal :=
  takePadded 6 (lowBits p 2) s

/-- `HDR_PAD7`: padding 7, payload `b[0:0]` (R56). -/
def execHdrPad7 (p : BitVec 1) (s : State) : Host.Outcome State Fault Refusal :=
  takePadded 7 (lowBits p 1) s

/-- `HDR_PAD8`: padding 8, no payload bit in this byte (R56). -/
def execHdrPad8 (s : State) : Host.Outcome State Fault Refusal :=
  takePadded 8 [] s

/-- `HDR_CORRUPT`: no sentinel; as the first byte it is stripped whole and `CORRUPT_PAD` is set (R56, R87). -/
def execHdrCorrupt (s : State) : Host.Outcome State Fault Refusal :=
  inMode .dec (takeByte (List.replicate 8 false) ([], true)) s

end Sys2Proof.Machine
end

