-- ==== Sys2Proof/Machine/Dispatch.lean ====
section
/-! DEFINITION. One arm per instruction, each a direct call of its meaning. -/

namespace Sys2Proof.Machine

def exec (i : Instr) (s : State) : Host.Outcome State Fault Refusal :=
  match i with
  | .encBegin => Sys2Proof.Machine.execEncBegin s
  | .encSym sym => Sys2Proof.Machine.execEncSym sym s
  | .encEnd => Sys2Proof.Machine.execEncEnd s
  | .decBegin r => Sys2Proof.Machine.execDecBegin r s
  | .decByte b => Sys2Proof.Machine.execDecByte b s
  | .decEnd => Sys2Proof.Machine.execDecEnd s
  | .hdrPad1 p => Sys2Proof.Machine.execHdrPad1 p s
  | .hdrPad2 p => Sys2Proof.Machine.execHdrPad2 p s
  | .hdrPad3 p => Sys2Proof.Machine.execHdrPad3 p s
  | .hdrPad4 p => Sys2Proof.Machine.execHdrPad4 p s
  | .hdrPad5 p => Sys2Proof.Machine.execHdrPad5 p s
  | .hdrPad6 p => Sys2Proof.Machine.execHdrPad6 p s
  | .hdrPad7 p => Sys2Proof.Machine.execHdrPad7 p s
  | .hdrPad8 => Sys2Proof.Machine.execHdrPad8 s
  | .hdrCorrupt => Sys2Proof.Machine.execHdrCorrupt s

end Sys2Proof.Machine
end

