-- ==== Sys2Proof/Machine/Sequencer.lean ====
section
/-! DEFINITION. The sequencer: what one move of the host does (R8, R21, R23, R131, R140), and how an
opcode-table word is laid where the next step takes it. -/

namespace Sys2Proof.Machine

/-- The row a decoded command is issued as: the byte of a `DEC_BYTE` that is the first of its session
is a header byte, told by its form (R56, R63: the only context of decoding is `FIRST`). Every other
command is issued as decoded (log 11). -/
def issue (i : Instr) (s : State) : Instr :=
  match i with
  | .decByte b => if s.mode = .dec ∧ s.first = true then headerForm b else .decByte b
  | .encBegin => .encBegin
  | .encSym sym => .encSym sym
  | .encEnd => .encEnd
  | .decBegin r => .decBegin r
  | .decEnd => .decEnd
  | .hdrPad1 p => .hdrPad1 p
  | .hdrPad2 p => .hdrPad2 p
  | .hdrPad3 p => .hdrPad3 p
  | .hdrPad4 p => .hdrPad4 p
  | .hdrPad5 p => .hdrPad5 p
  | .hdrPad6 p => .hdrPad6 p
  | .hdrPad7 p => .hdrPad7 p
  | .hdrPad8 => .hdrPad8
  | .hdrCorrupt => .hdrCorrupt

/-- A beat taken, in the order of R131: in mode `FAULT` it is discarded; an illegal one raises
`IllegalCommand`; a command makes its own mode check and then its own checks. -/
def takeBeat (b : Beat) (s : State) : Host.Outcome State Fault Refusal :=
  if s.mode = .fault then .next s
  else
    match decode b with
    | .error _ => .next (raise .illegalCommand s)
    | .ok i => exec (issue i s) s

/-- One move of the host: `rst` (R140) or a beat (R23). -/
def takeMove (m : HostMove) (s : State) : Host.Outcome State Fault Refusal :=
  match m with
  | .rst => .next (applyReset s)
  | .beat b => takeBeat b s

/-- The sequencer's step: the oldest waiting move is taken; with none waiting the block waits and
nothing changes (R140; log 3). -/
def sequence (s : State) : Host.Outcome State Fault Refusal :=
  match s.inp with
  | [] => .next s
  | m :: rest => takeMove m (s.setInp rest)

/-- The tree image of the spec's configuration C (95_test_vectors.md section 2.3), root 2: what
`readyForHeader` falls back on when the instance has no tree to walk. -/
def fallbackTree : Memory 17 := [(1, 0x0007F), (2, 0x10001)]

/-- A state in which the next byte is a header byte: an open decode session that has taken none. The
state itself if it is one; else the instance after `rst` and `DEC_BEGIN` on the node `ROOT` names, and
where that is no internal node, on `fallbackTree` (log 13). -/
def readyForHeader (s : State) : State :=
  if s.mode = .dec ∧ s.first = true ∧ s.cfg.internalAt s.node.toNat = true then s
  else if s.cfg.internalAt s.root.toNat then openDecode s.root (applyReset s)
  else openDecode 2 (applyReset (s.setCfg { s.cfg with nodes := 255, treeRom := fallbackTree }))

/-- The word `w` of an opcode-table row put at the head of `IN`: a command beat as it is; a header byte
as the `DEC_BYTE` that carries it, in a state in which that byte is a header byte (log 13). -/
def offerWord (nbits w : Nat) (s : State) : State :=
  if nbits ≤ 8 then
    let s' := readyForHeader s
    s'.setInp (.beat (cmdBeat 0b101 (BitVec.ofNat 8 w)) :: s'.inp)
  else s.setInp (.beat (BitVec.ofNat 11 w) :: s.inp)

end Sys2Proof.Machine
end

