-- ==== Sys2Proof/Machine/Step.lean ====
section
/-! DEFINITION. The step and the placing of an instruction: both in Machine/Sequencer.lean. -/

namespace Sys2Proof.Machine

/-- One step of the machine (R8, R23): the sequencer takes the oldest waiting move. -/
def step (s : State) : Host.Outcome State Fault Refusal := sequence s

/-- The state whose next step takes the opcode-table word `w` (log 13). -/
def State.withFetchWord (s : State) (nbits w : Nat) : State := offerWord nbits w s

end Sys2Proof.Machine
end

