-- ==== Sys2Proof/Machine/Asm.lean ====
section
/-! DEFINITION. The text of command sequences (R64): one command per line, a mnemonic, an operand if the
command has one, an optional comment after `;`. Text is a list of characters. The block never sees it. -/

namespace Sys2Proof.Machine

/-- A space or a tab (log 17). -/
def isBlank (c : Char) : Bool := c == ' ' || c == '\t'

/-- The value of a digit, upper or lower case. -/
def digitValue (c : Char) : Option Nat :=
  let n := c.toNat
  if 48 ≤ n ∧ n ≤ 57 then some (n - 48)
  else if 65 ≤ n ∧ n ≤ 70 then some (n - 55)
  else if 97 ≤ n ∧ n ≤ 102 then some (n - 87)
  else none

/-- The digits of a number in `base` read on from the value `acc`; `none` at a character that is no digit
of the base. In base 2 underscores are ignored (R64). -/
def digitsValue (base acc : Nat) : List Char → Option Nat
  | [] => some acc
  | c :: rest =>
    if base = 2 ∧ c = '_' then digitsValue base acc rest
    else
      match digitValue c with
      | some d => if d < base then digitsValue base (base * acc + d) rest else none
      | none => none

/-- A number: `0x` hexadecimal, `0b` binary, else decimal (R64). A binary number of underscores alone (`0b_`)
is 0, while `0b` is no number: DESIGN CHOICE, the spec says only that underscores are ignored (log 17). -/
def parseNumber : List Char → Option Nat
  | [] => none
  | '0' :: 'x' :: d :: rest => digitsValue 16 0 (d :: rest)
  | '0' :: 'b' :: d :: rest => digitsValue 2 0 (d :: rest)
  | d :: rest => digitsValue 10 0 (d :: rest)

/-- A number that fits an operand. -/
def parseByte (text : List Char) : Option Byte :=
  match parseNumber text with
  | some n => if n < 256 then some (BitVec.ofNat 8 n) else none
  | none => none

/-- The symbol of an `ENC_SYM`: a number, or a character in single quotes standing for its ordinal (R64;
ASCII, log 16). -/
def parseSymbol : List Char → Option Byte
  | ['\'', c, '\''] => if c.toNat < 128 then some (BitVec.ofNat 8 c.toNat) else none
  | text => parseByte text

/-- A line without its comment; a quoted character may be a `;` or a blank. -/
def stripComment : List Char → List Char
  | [] => []
  | '\'' :: c :: '\'' :: rest => '\'' :: c :: '\'' :: stripComment rest
  | c :: rest => if c = ';' then [] else c :: stripComment rest

/-- Blanks removed at both ends. -/
def trimBlanks (text : List Char) : List Char :=
  ((text.dropWhile isBlank).reverse.dropWhile isBlank).reverse

/-- The command of a mnemonic and the text of its operand (R60, R64). -/
def parseCommand (mnemonic operand : List Char) : Option Instr :=
  if mnemonic = ['E', 'N', 'C', '_', 'B', 'E', 'G', 'I', 'N'] then
    if operand = [] then some .encBegin else none
  else if mnemonic = ['E', 'N', 'C', '_', 'S', 'Y', 'M'] then (parseSymbol operand).map .encSym
  else if mnemonic = ['E', 'N', 'C', '_', 'E', 'N', 'D'] then
    if operand = [] then some .encEnd else none
  else if mnemonic = ['D', 'E', 'C', '_', 'B', 'E', 'G', 'I', 'N'] then (parseByte operand).map .decBegin
  else if mnemonic = ['D', 'E', 'C', '_', 'B', 'Y', 'T', 'E'] then (parseByte operand).map .decByte
  else if mnemonic = ['D', 'E', 'C', '_', 'E', 'N', 'D'] then
    if operand = [] then some .decEnd else none
  else none

/-- One line of text: `none` if it is no line of the syntax, `some none` if it holds no command, else the
command (R64). -/
def parseLine (line : List Char) : Option (Option Instr) :=
  let text := trimBlanks (stripComment line)
  if text.isEmpty then some none
  else
    let mnemonic := text.takeWhile (fun c => !isBlank c)
    (parseCommand mnemonic (trimBlanks (text.dropWhile (fun c => !isBlank c)))).map some

/-- One hexadecimal digit, upper case. -/
def hexDigit (n : Nat) : Char := if n < 10 then Char.ofNat (48 + n) else Char.ofNat (55 + n)

/-- A byte as `0xHH` (R64). -/
def hexText (b : Byte) : List Char := ['0', 'x', hexDigit (b.toNat / 16), hexDigit (b.toNat % 16)]

/-- A command as a line of text, its operand in hexadecimal (R64). The header forms are no commands. -/
def commandText : Instr → Option (List Char)
  | .encBegin => some ['E', 'N', 'C', '_', 'B', 'E', 'G', 'I', 'N']
  | .encSym s => some (['E', 'N', 'C', '_', 'S', 'Y', 'M', ' '] ++ hexText s)
  | .encEnd => some ['E', 'N', 'C', '_', 'E', 'N', 'D']
  | .decBegin r => some (['D', 'E', 'C', '_', 'B', 'E', 'G', 'I', 'N', ' '] ++ hexText r)
  | .decByte b => some (['D', 'E', 'C', '_', 'B', 'Y', 'T', 'E', ' '] ++ hexText b)
  | .decEnd => some ['D', 'E', 'C', '_', 'E', 'N', 'D']
  | .hdrPad1 _ | .hdrPad2 _ | .hdrPad3 _ | .hdrPad4 _ | .hdrPad5 _ | .hdrPad6 _ | .hdrPad7 _
  | .hdrPad8 | .hdrCorrupt => none

/-- The name of a kind of output beat (R52). -/
def kindText : Kind → List Char
  | .byte => ['B', 'Y', 'T', 'E']
  | .sym => ['S', 'Y', 'M']
  | .done => ['D', 'O', 'N', 'E']
  | .err => ['E', 'R', 'R']

/-- An output beat as `KIND(data)`, its data in hexadecimal (R64). -/
def OutBeat.text (o : OutBeat) : List Char := kindText o.kind ++ ['('] ++ hexText o.data ++ [')']

end Sys2Proof.Machine
end

