-- ==== Sys2Proof/Machine/Images.lean ====
section
/-! DEFINITION. Well-formedness of the ROM images (R110, R111, R112): the literal predicates, and checks
that compute. The hardware checks none of them (R143): they are hypotheses of laws. -/

namespace Sys2Proof.Machine

/-- Index `i` is within the tree ROM and its node is a leaf. -/
def leafAt (c : Config) (i : Nat) : Bool := decide (i < c.nodes) && !nodeTag (c.treeNode i)

/-- The child of node `i` as an index (R59). -/
def childAt (c : Config) (i : Nat) (bit : Bool) : Nat := (child (c.treeNode i) bit).toNat

/-- The `SYMBOL` field of node `i` (R54). -/
def symbolAt (c : Config) (i : Nat) : Byte := nodeB (c.treeNode i)

/-- Where the branches `bits` lead from node `i`, passing internal nodes only (R108). -/
def follow (c : Config) : Nat → Bits → Option Nat
  | i, [] => some i
  | i, bit :: rest => if c.internalAt i then follow c (childAt c i bit) rest else none

/-- R110 for one set `V` of indices, clause by clause. -/
structure TreeWFOn (c : Config) (r : Nat) (V : List Nat) : Prop where
  bounded : ∀ i ∈ V, i < c.nodes
  root_mem : r ∈ V
  /-- Clause (1). -/
  root_internal : nodeTag (c.treeNode r) = true
  /-- Clause (2). -/
  closed : ∀ i ∈ V, nodeTag (c.treeNode i) = true → ∀ bit, childAt c i bit ∈ V
  /-- Clause (3): every other node is a child in exactly one position of exactly one node. -/
  one_parent : ∀ i ∈ V, i ≠ r →
    ∃! p : Nat × Bool, p.1 ∈ V ∧ nodeTag (c.treeNode p.1) = true ∧ childAt c p.1 p.2 = i
  /-- Clause (3): the root is the child of none. -/
  root_no_parent : ∀ i ∈ V, nodeTag (c.treeNode i) = true → ∀ bit, childAt c i bit ≠ r
  /-- Clause (4). -/
  reachable : ∀ i ∈ V, ∃ bits, follow c r bits = some i
  /-- Clause (5). -/
  leaf_fields : ∀ i ∈ V, nodeTag (c.treeNode i) = false →
    (symbolAt c i).toNat < c.k ∧ nodeA (c.treeNode i) = 0
  /-- Clause (6). -/
  distinct_symbols : ∀ i ∈ V, ∀ j ∈ V, nodeTag (c.treeNode i) = false →
    nodeTag (c.treeNode j) = false → symbolAt c i = symbolAt c j → i = j

/-- `TreeWF(r)` (R110). -/
def TreeWF (c : Config) (r : Nat) : Prop := ∃ V, TreeWFOn c r V

/-- `CodeWF` (R111). -/
def CodeWF (c : Config) : Prop :=
  (∀ s < c.k, c.codeLen s ≤ c.maxLen ∧ (c.codeEntry s).toNat % 2 ^ c.maxLen < 2 ^ c.codeLen s) ∧
  (∀ s < c.k, c.codeLen s = 0 → c.codeEntry s = 0) ∧
  (∀ s < c.k, ∀ t < c.k, s ≠ t → c.codeLen s ≠ 0 → c.codeLen t ≠ 0 →
    ¬ (symbolBits c s).IsPrefix (symbolBits c t))

/-- `CodeTreeConsistent(r)` (R112): a leaf reached from `r` by `bits` with an ordinal `s < K` as its
symbol has `bits` as the code of `s`; a symbol with no such leaf has no code. -/
structure CodeTreeConsistent (c : Config) (r : Nat) : Prop where
  tree : TreeWF c r
  code : ∀ bits i, follow c r bits = some i → leafAt c i = true → (symbolAt c i).toNat < c.k →
    c.codeLen (symbolAt c i).toNat = bits.length ∧ symbolBits c (symbolAt c i).toNat = bits
  absent : ∀ s < c.k,
    (¬ ∃ bits i, follow c r bits = some i ∧ leafAt c i = true ∧ (symbolAt c i).toNat = s) →
    c.codeLen s = 0

/-- The children of the internal nodes of a list. -/
def childrenOf (c : Config) (nodes : List Nat) : List Nat :=
  nodes.flatMap fun i => if c.internalAt i then [childAt c i false, childAt c i true] else []

/-- The nodes of `seen` and everything below `frontier`, by rounds; `fuel` bounds the rounds. -/
def closure (c : Config) : Nat → List Nat → List Nat → List Nat
  | 0, seen, _ => seen
  | fuel + 1, seen, frontier =>
    let fresh := ((childrenOf c frontier).filter (fun i => !seen.contains i)).dedup
    if fresh.isEmpty then seen else closure c fuel (seen ++ fresh) fresh

/-- Everything reachable from `r`. -/
def reachableFrom (c : Config) (r : Nat) : List Nat := closure c c.nodes [r] [r]

/-- The places (node, branch) of `V` whose child is `i`. -/
def parentsOf (c : Config) (V : List Nat) (i : Nat) : List (Nat × Bool) :=
  (V.filter (fun j => nodeTag (c.treeNode j))).flatMap fun j =>
    [(j, false), (j, true)].filter (fun p => childAt c p.1 p.2 == i)

/-- The clauses of R110 but reachability, computed on `V`. -/
def treeCheckOn (c : Config) (r : Nat) (V : List Nat) : Bool :=
  V.all (fun i => decide (i < c.nodes)) && V.contains r && nodeTag (c.treeNode r) && decide V.Nodup
    && V.all (fun i => !nodeTag (c.treeNode i) ||
      (V.contains (childAt c i false) && V.contains (childAt c i true)))
    && V.all (fun i => (parentsOf c V i).length == if i = r then 0 else 1)
    && V.all (fun i => nodeTag (c.treeNode i) ||
      (decide ((symbolAt c i).toNat < c.k) && decide (nodeA (c.treeNode i) = 0)))
    && decide ((V.filter (fun i => !nodeTag (c.treeNode i))).map (symbolAt c)).Nodup

/-- A check that computes for `TreeWF(r)` (R110). -/
def treeCheck (c : Config) (r : Nat) : Bool := treeCheckOn c r (reachableFrom c r)

/-- The code of every leaf below node `i`, depth first, left before right (R108): the branches taken from
the root, in `acc` those above `i`. `none` where an index leaves the ROM or `fuel` levels do not do. -/
def codePaths (c : Config) : Nat → Nat → Bits → Option (List (Byte × Bits))
  | 0, _, _ => none
  | fuel + 1, i, acc =>
    if c.nodes ≤ i then none
    else if nodeTag (c.treeNode i) then do
      let left ← codePaths c fuel (childAt c i false) (acc ++ [false])
      let right ← codePaths c fuel (childAt c i true) (acc ++ [true])
      pure (left ++ right)
    else some [(symbolAt c i, acc)]

/-- The code table entry of symbol `s` agrees with the leaves listed in `table` (R112). -/
def entryAgrees (c : Config) (table : List (Byte × Bits)) (s : Nat) : Bool :=
  match table.find? (fun row => row.1.toNat == s) with
  | some row => c.codeLen s == row.2.length && symbolBits c s == row.2
  | none => c.codeLen s == 0

/-- A check that computes for `CodeTreeConsistent(r)` (R112). -/
def consistentCheck (c : Config) (r : Nat) : Bool :=
  treeCheck c r &&
    match codePaths c c.nodes r [] with
    | none => false
    | some table => decide (table.map (·.1)).Nodup && (List.range c.k).all (entryAgrees c table)

/-- The ordinals with a code: the listed entries of the code ROM with `LEN >= 1`. -/
def codedSymbols (c : Config) : List Nat :=
  (c.codeRom.map (·.1)).filter (fun s => c.codeLen s != 0)

/-- A check that computes for `CodeWF` (R111), over the listed entries (an unlisted one is all zero). -/
def codeWFCheck (c : Config) : Bool :=
  (c.codeRom.map (·.1)).all (fun s =>
    decide (c.codeLen s ≤ c.maxLen) &&
    decide ((c.codeEntry s).toNat % 2 ^ c.maxLen < 2 ^ c.codeLen s) &&
    (c.codeLen s != 0 || decide (c.codeEntry s = 0))) &&
  (codedSymbols c).all (fun s => (codedSymbols c).all (fun t =>
    s == t || !(symbolBits c s).isPrefixOf (symbolBits c t)))

end Sys2Proof.Machine
end

