-- ==== Sys2Proof/Machine/HostTables.lean ====
section
/-! DEFINITION. The host-side procedures that decide the ROM images (42_host_tables.md R100 to R113):
frequency table, tree builder, code generator, canonical layout. No command of the block runs them. -/

namespace Sys2Proof.Machine

/-- `ProbArith` (R101, D27): the arithmetic of probabilities, a parameter of the host procedures
(log 14). -/
structure ProbArith (P : Type) where
  /-- `count / total`. -/
  ratio : Nat → Nat → P
  /-- The probability of the synthetic symbol (R103). -/
  zero : P
  add : P → P → P
  lt : P → P → Bool
  eq : P → P → Bool

/-- Exact rational numbers, the arithmetic of the spec's own examples (R101). -/
def exactArith : ProbArith Rat where
  ratio count total := (count : Rat) / (total : Rat)
  zero := 0
  add x y := x + y
  lt x y := decide (x < y)
  eq x y := decide (x = y)

/-- A SymbolFrequency (R101): a real symbol's ordinal, or `none` for the null marker. -/
structure SymbolFrequency (P : Type) where
  symbol : Option Nat
  probability : P
  deriving DecidableEq, Repr

/-- The ordering relation of R102. -/
def SymbolFrequency.before {P : Type} (pa : ProbArith P) (x y : SymbolFrequency P) : Bool :=
  pa.lt x.probability y.probability ||
    (pa.eq x.probability y.probability &&
      match x.symbol, y.symbol with
      | some a, some b => decide (a < b)
      | some _, none => true
      | none, _ => false)

/-- Insertion into a list sorted by R102. -/
def insertEntry {P : Type} (pa : ProbArith P) (x : SymbolFrequency P) :
    List (SymbolFrequency P) → List (SymbolFrequency P)
  | [] => [x]
  | y :: rest => if x.before pa y then x :: y :: rest else y :: insertEntry pa x rest

/-- The list sorted by R102. -/
def sortEntries {P : Type} (pa : ProbArith P) (entries : List (SymbolFrequency P)) :
    List (SymbolFrequency P) :=
  entries.foldr (insertEntry pa) []

/-- One entry per distinct symbol of the domain that occurs in the source, weighted `count / total`
(R100), by ordinal (log 15). -/
def countEntries {P : Type} (pa : ProbArith P) (k : Nat) (source : List Byte) :
    List (SymbolFrequency P) :=
  (List.range k).filterMap fun s =>
    let count := source.countP (fun t => t.toNat == s)
    if count = 0 then none else some ⟨some s, pa.ratio count source.length⟩

/-- The single-symbol case of R103: a second, synthetic entry of probability zero, the domain-successor
of the one symbol, wrapping to slot 0. -/
def withSynthetic {P : Type} (pa : ProbArith P) (k : Nat) :
    List (SymbolFrequency P) → List (SymbolFrequency P)
  | [⟨some h, p⟩] => [⟨some h, p⟩, ⟨some ((h + 1) % k), pa.zero⟩]
  | entries => entries

/-- `buildFrequencyTable(source)` (R100, R103, R104); `none` is EmptySource (R121). -/
def buildFrequencyTable {P : Type} (pa : ProbArith P) (k : Nat) (source : List Byte) :
    Option (List (SymbolFrequency P)) :=
  if source.isEmpty then none
  else some (sortEntries pa (withSynthetic pa k (countEntries pa k source)))

/-- A node waiting to be merged: its probability and its index in the tree ROM. -/
structure Pending (P : Type) where
  probability : P
  index : Nat
  deriving DecidableEq, Repr

/-- `takeSmallest(source, target)` (R107): the node taken and the two sequences left; on an exact tie
`source` is preferred; `none` if both are empty. -/
def takeSmallest {P : Type} (pa : ProbArith P) (source target : List (Pending P)) :
    Option (Pending P × List (Pending P) × List (Pending P)) :=
  match source, target with
  | [], [] => none
  | [], t :: ts => some (t, [], ts)
  | s :: ss, [] => some (s, ss, [])
  | s :: ss, t :: ts =>
    if pa.lt t.probability s.probability then some (t, s :: ss, ts) else some (s, ss, t :: ts)

/-- The node word of an internal node (R54). -/
def internalWord (left right : Nat) : NodeWord := 1#1 ++ BitVec.ofNat 8 left ++ BitVec.ofNat 8 right

/-- The node word of a leaf in a well-formed image (R54, R62). -/
def leafWord (symbol : Nat) : NodeWord := 0#1 ++ 0#8 ++ BitVec.ofNat 8 symbol

/-- The merge loop of R106 on the nodes created so far (in index order): the root's index and all nodes.
It ends when `source` is empty and `target` holds one node; `fuel` bounds the merges. -/
def mergeLoop {P : Type} (pa : ProbArith P) :
    Nat → List (Pending P) → List (Pending P) → List NodeWord → Option (Nat × List NodeWord)
  | _, [], [t], nodes => some (t.index, nodes)
  | 0, _, _, _ => none
  | fuel + 1, source, target, nodes =>
    match takeSmallest pa source target with
    | none => none
    | some (x, source', target') =>
      match takeSmallest pa source' target' with
      | none => none
      | some (y, source'', target'') =>
        mergeLoop pa fuel source''
          (target'' ++ [⟨pa.add x.probability y.probability, nodes.length⟩])
          (nodes ++ [internalWord x.index y.index])

/-- `buildTree(table)` (R105, R106) in the canonical layout (R113): the root's index and the node words;
`none` on a table of fewer than two entries, which R105 excludes (log 15). -/
def buildTree {P : Type} (pa : ProbArith P) (table : List (SymbolFrequency P)) :
    Option (Nat × List NodeWord) :=
  if table.length < 2 then none
  else
    mergeLoop pa table.length (table.zipIdx.map fun e => ⟨e.1.probability, e.2⟩) []
      (table.map fun e => leafWord (e.symbol.getD 0))

/-- The ROM image that holds the words at indices `0, 1, ...` and zero above. -/
def imageOf {w : Nat} (words : List (BitVec w)) : Memory w :=
  words.zipIdx.filterMap fun e => if e.1 = 0 then none else some (e.2, e.1)

/-- `buildCodeTable(root)` (R108): the code of every leaf; a root that is a leaf gets the code "0". -/
def buildCodeTable (c : Config) (root : Nat) : Option (List (Byte × Bits)) :=
  if leafAt c root then some [(symbolAt c root, [false])] else codePaths c c.nodes root []

/-- The code ROM entry of a code: `LEN` and the right-aligned bits (R53). -/
def codeWord (c : Config) (bits : Bits) : CodeEntry :=
  BitVec.ofNat 134 (bits.length * 2 ^ c.maxLen + bitsValue bits)

/-- The code ROM image of a code table: at index `s` the code of `s`, elsewhere zero (R113). -/
def codeImage (c : Config) (table : List (Byte × Bits)) : Memory 134 :=
  table.foldl (fun m row => Memory.write m row.1.toNat (codeWord c row.2)) []

/-- An instance's configuration built from a source by R100 to R109 and laid out by R113, on the
parameters of `c`, with the index of the root; `none` for an empty source, and for a tree whose `2n - 1` nodes
do not fit the `NODES` entries of the instance, where the spec is silent: DESIGN CHOICE (log 15). -/
def buildConfig {P : Type} (pa : ProbArith P) (c : Config) (source : List Byte) :
    Option (Config × Nat) := do
  let table ← buildFrequencyTable pa c.k source
  let (root, words) ← buildTree pa table
  let withTree : Config := { c with treeRom := imageOf words }
  let codes ← buildCodeTable withTree root
  pure ({ withTree with codeRom := codeImage withTree codes }, root)

/-- Building the model of an instance: a configuration that fails the range conditions of R4 to R7 is
refused here (60_exceptions.md section 4; log 9). -/
def acceptConfig (c : Config) : Option Config := if c.wf then some c else none

end Sys2Proof.Machine
end

