-- ==== Sys2Proof/Safety.lean ====
section
/-! DEFINITION. What claims are stated with: runs, the invariants of R28, sessions and their results
(R152). -/

namespace Sys2Proof.Machine

/-- `n` steps, ending at the first stop. -/
def stepN : Nat → State → Host.Outcome State Fault Refusal
  | 0, s => .next s
  | n + 1, s =>
    match step s with
    | .next s' => stepN n s'
    | .fault r => .fault r
    | .refused r => .refused r

/-- `s'` is reached from `s` by some number of steps. -/
def Reaches (s s' : State) : Prop := ∃ n, stepN n s = .next s'

/-- The codes `FAULT_CODE` can hold (R20): 0 and the seven causes the block raises. -/
def blockCodes : List (BitVec 4) := [0, 2, 5, 6, 7, 8, 9, 10]

/-- The invariants of R28 items 1 to 6 as far as one state shows them (the clause of item 6 about the beats
of the session is `State.NothingSaidYet`; item 7 is `Obligations.FaultModeDiscards`), with the range conditions of the configuration (R4 to R7), the codes of R20, and `MIDCODE = 0`
in an open session (R18, R19). -/
structure State.Inv (s : State) : Prop where
  /-- The configuration is in range and its images are canonical. -/
  cfg : s.cfg.wf = true
  /-- R28 item 1. -/
  fault : s.mode = .fault ↔ s.faultCode ≠ 0
  /-- R20: `FAULT_CODE` holds 0 or the code of a cause the block raises. -/
  code : s.faultCode ∈ blockCodes
  /-- R28 item 2. -/
  buffer : s.mode ≠ .enc → s.bitbuf = []
  /-- R28 item 3. -/
  capacity : s.cfg.fits s.bitbuf.length = true
  /-- R28 item 4, the root. -/
  root : s.mode = .dec → s.cfg.internalAt s.root.toNat = true
  /-- R28 item 4, the walk pointer. -/
  node : s.mode = .dec → s.cfg.internalAt s.node.toNat = true
  /-- R28 item 5. -/
  encFlags : s.mode = .enc → s.corruptPad = false ∧ s.midcode = false
  /-- R28 item 6, the registers. -/
  first : s.mode = .dec → s.first = true → s.node = s.root ∧ s.corruptPad = false
  /-- `MIDCODE` is written by `DEC_END` only, and cleared where a session begins (R18). -/
  decFlags : s.mode = .dec → s.midcode = false

/-- The state moves of the host waiting on `IN` in front of those already there. -/
def State.offer (moves : List HostMove) (s : State) : State := s.setInp (moves ++ s.inp)

/-- The moves that send these commands and nothing else: each the beat of its encoding (R64). A header
row is sent as the `DEC_BYTE` that carries it. -/
def movesOf (program : List Instr) : List HostMove :=
  program.map fun i =>
    match encode i with
    | .cmd b => .beat b
    | .hdr b => .beat (cmdBeat 0b101 b)

/-- `ENCODE T` (R65): begin, the symbols of the text in order, end. -/
def encodeProgram (text : List Byte) : List Instr :=
  .encBegin :: text.map .encSym ++ [.encEnd]

/-- `DECODE r, bytes` (R65): begin, the bytes in order, end. -/
def decodeProgram (r : Byte) (bytes : List Byte) : List Instr :=
  .decBegin r :: bytes.map .decByte ++ [.decEnd]

/-- The mode a row of the opcode table is legal in (R125); the header forms are bytes of a `DEC_BYTE`. -/
def legalMode : Instr → Mode
  | .encBegin => .idle
  | .encSym _ => .enc
  | .encEnd => .enc
  | .decBegin _ => .idle
  | .decByte _ => .dec
  | .decEnd => .dec
  | .hdrPad1 _ => .dec
  | .hdrPad2 _ => .dec
  | .hdrPad3 _ => .dec
  | .hdrPad4 _ => .dec
  | .hdrPad5 _ => .dec
  | .hdrPad6 _ => .dec
  | .hdrPad7 _ => .dec
  | .hdrPad8 => .dec
  | .hdrCorrupt => .dec

/-- The state after bits of the stream have completed the symbols `syms` and left the walk pointer at
`last`: `SYM` beats in order and `NODE`, nothing else (R89, R90). -/
def State.walked (s : State) (syms : List Byte) (last : Byte) : State :=
  (s.emitAll (syms.map fun u => ⟨.sym, u⟩)).setNode last

/-- The payload bits and the corrupt mark of a byte taken in state `s`: by pad detection if it is the
first of its session, else all eight bits (R86). -/
def payloadOf (s : State) (b : Byte) : Bits × Bool :=
  if s.first then padDetect b else (bitsOf b, false)

/-- The state when the payload of a byte is about to be walked (R86). -/
def State.received (s : State) (corrupt : Bool) : State :=
  { s with first := false, corruptPad := s.corruptPad || corrupt }

/-- The beats emitted between `s` and a later state `s'`. -/
def emittedSince (s s' : State) : List OutBeat := s'.out.drop s.out.length

/-- What of a run sessions are told by (R152). -/
inductive RunEvent where
  /-- A `*_BEGIN` beat is taken in mode `IDLE`: a session begins. -/
  | began
  /-- A beat is emitted. -/
  | emitted (o : OutBeat)
  /-- `rst` is taken. -/
  | reset
  deriving DecidableEq, Repr

/-- Taking the beat `b` in state `s` begins a session: it is a `*_BEGIN`, the commands legal in mode `IDLE`,
and the mode is `IDLE` (R125, R152). -/
def opensSession (b : Beat) (s : State) : Bool :=
  match decode b with
  | .ok i => decide (s.mode = .idle ∧ legalMode i = .idle)
  | .error _ => false

/-- The events of one step, in order. -/
def stepEvents (s : State) : List RunEvent :=
  match s.inp, step s with
  | .rst :: _, _ => [.reset]
  | .beat b :: _, .next s' =>
    (if opensSession b s then [.began] else []) ++ (emittedSince s s').map .emitted
  | _, _ => []

/-- The events of `n` steps, in order; a step that stops ends them. -/
def runEvents : Nat → State → List RunEvent
  | 0, _ => []
  | n + 1, s =>
    stepEvents s ++
      match step s with
      | .next s' => runEvents n s'
      | .fault _ => []
      | .refused _ => []

/-- How a session ended (R152). -/
inductive SessionResult where
  /-- `DONE` was emitted: the data beats before it, and its status byte. -/
  | succeeded (data : List OutBeat) (statusData : Byte)
  /-- `ERR` was emitted: the data beats before it, and the code. -/
  | failed (data : List OutBeat) (code : Byte)
  /-- The beats ran out, or reset came, before either: no result. -/
  | unfinished
  deriving DecidableEq, Repr

/-- The result of a session, from the events after its beginning (R152): it ends at the first `DONE` or
`ERR`, without a result where the events end or reset comes before either. No session begins inside an open
one, where the mode is not `IDLE`. -/
def sessionResult : List RunEvent → SessionResult
  | [] => .unfinished
  | .reset :: _ => .unfinished
  | .began :: rest => sessionResult rest
  | .emitted o :: rest =>
    match o.kind with
    | .done => .succeeded [] o.data
    | .err => .failed [] o.data
    | .byte | .sym =>
      match sessionResult rest with
      | .succeeded data d => .succeeded (o :: data) d
      | .failed data d => .failed (o :: data) d
      | .unfinished => .unfinished

/-- An output beat in the format of R52 and R62: `DONE` data has bits 7 to 2 zero, `ERR` data is one of the
seven codes of the block. -/
def OutBeat.inFormat (o : OutBeat) : Bool :=
  match o.kind with
  | .byte | .sym => true
  | .done => decide (o.data.toNat < 4)
  | .err => decide (o.data ∈ ([2, 5, 6, 7, 8, 9, 10] : List Byte))

/-- The sessions of a run, in order, each by its result (R152). -/
def sessionsOf : List RunEvent → List SessionResult
  | [] => []
  | .began :: rest => sessionResult rest :: sessionsOf rest
  | .emitted _ :: rest => sessionsOf rest
  | .reset :: rest => sessionsOf rest

/-- The beats emitted since the latest beginning of a session or reset, from those emitted so far and the
events that follow (R28 item 6, R152). -/
def sessionBeats (sofar : List OutBeat) : List RunEvent → List OutBeat
  | [] => sofar
  | .began :: rest => sessionBeats [] rest
  | .emitted o :: rest => sessionBeats (sofar ++ [o]) rest
  | .reset :: rest => sessionBeats [] rest

/-- R28 item 6, the history: in a decode session that has taken no byte, of whose beats `beats` is the
list, no `SYM` beat has been emitted; nor has any other. -/
def State.NothingSaidYet (beats : List OutBeat) (s : State) : Prop :=
  s.mode = .dec → s.first = true → beats = []

end Sys2Proof.Machine
end

