-- ==== Sys2Proof/WellFormed.lean ====
section
/-! DEFINITION. Well-formed instructions: the operand ranges of R57 on a given configuration. Every
operand already fits its field by its type; an operand outside these ranges still has a meaning (it
faults), so no law about encoding assumes this check. -/

namespace Sys2Proof

/-- The operand lies in the range R57 names for it: a symbol ordinal below `K`, a root index below
`NODES`; the other operands are unrestricted data. -/
def Instr.wellFormed (c : Config) : Instr → Bool
  | .encBegin => true
  | .encSym s => decide (s.toNat < c.k)
  | .encEnd => true
  | .decBegin r => decide (r.toNat < c.nodes)
  | .decByte _ => true
  | .decEnd => true
  | .hdrPad1 _ => true
  | .hdrPad2 _ => true
  | .hdrPad3 _ => true
  | .hdrPad4 _ => true
  | .hdrPad5 _ => true
  | .hdrPad6 _ => true
  | .hdrPad7 _ => true
  | .hdrPad8 => true
  | .hdrCorrupt => true

end Sys2Proof
end

