-- ==== Sys2Proof/Certificates/Slice0/Obligations.lean ====
section
/-! DEFINITION. The statements for the provers. Each docstring names the rule it formalises. An update
`{ s with ... }` in a conclusion says the frame too: every other register, `OUT`, `IN` and the
configuration (both ROMs) are unchanged. -/

open Sys2Proof Sys2Proof.Machine

/-! ### Reset, invariants, whole-machine rules -/

/-- The registers right after power-on and reset (R140, 10_state.md section 10). The last line is the
model's choice: `ROOT` and `NODE` at 0 (log 5), the configuration `Config.blank` (log 6). -/
def Obligations.ResetRegisters : Prop :=
  State.reset.mode = .idle ∧ State.reset.faultCode = 0 ∧ State.reset.bitbuf = [] ∧
  State.reset.first = false ∧ State.reset.corruptPad = false ∧ State.reset.midcode = false ∧
  State.reset.out = [] ∧ State.reset.inp = [] ∧ status State.reset = 0 ∧
  State.reset.root = 0 ∧ State.reset.node = 0 ∧ State.reset.cfg = Config.blank

/-- The invariants of R28 hold at power-on of every configuration in range, where no session has emitted
anything. -/
def Obligations.PowerOnMeetsInvariant : Prop :=
  (∀ c : Config, c.wf = true → (State.powerOn c).Inv ∧ (State.powerOn c).NothingSaidYet []) ∧
  State.reset.Inv ∧ State.reset.NothingSaidYet []

/-- Every step keeps the invariants of R28: items 1 to 6 as far as one state shows them, and item 6's clause
that a decode session which has taken no byte has emitted no beat, the beats of the session followed along
with the step. -/
def Obligations.InvariantKept : Prop :=
  (∀ s s' : State, s.Inv → step s = .next s' → s'.Inv) ∧
  (∀ (s s' : State) (beats : List OutBeat), s.NothingSaidYet beats → step s = .next s' →
    s'.NothingSaidYet (sessionBeats beats (stepEvents s)))

/-- In every state that meets the invariants, whatever waits on `IN`, the step is defined: no fault of the
model and no refusal (R23). -/
def Obligations.EveryMoveHasAStep : Prop :=
  ∀ s : State, s.Inv → ∃ s', step s = .next s'

/-- No command and no reset changes the configuration (R26). -/
def Obligations.ConfigurationConstant : Prop :=
  ∀ s s' : State, step s = .next s' → s'.cfg = s.cfg

/-- `OUT` is append-only, over reset too (R24). -/
def Obligations.OutOnlyGrows : Prop :=
  ∀ (n : Nat) (s s' : State), stepN n s = .next s' → s.out <+: s'.out

/-- Which move enters which mode: `IDLE` by reset, `ENC_END` and `DEC_END`; `ENC` by `ENC_BEGIN`; `DEC` by
`DEC_BEGIN`; `FAULT` by a fault, with its `ERR` beat; and `FAULT` is left by reset only (R136). -/
def Obligations.ModeTransitions : Prop :=
  ∀ s s' : State, step s = .next s' → s'.mode ≠ s.mode →
    ∃ m rest, s.inp = m :: rest ∧
      ((m = .rst ∧ s'.mode = .idle) ∨
      ∃ b, m = .beat b ∧ s.mode ≠ .fault ∧
        ((s.mode = .idle ∧ s'.mode = .enc ∧ decode b = .ok .encBegin) ∨
        (s.mode = .idle ∧ s'.mode = .dec ∧ ∃ r, decode b = .ok (.decBegin r)) ∨
        (s.mode = .enc ∧ s'.mode = .idle ∧ decode b = .ok .encEnd) ∨
        (s.mode = .dec ∧ s'.mode = .idle ∧ decode b = .ok .decEnd) ∨
        (s'.mode = .fault ∧ ∃ c : Cause, s'.faultCode = c.code ∧
          s'.out.getLast? = some ⟨.err, errData c⟩)))

/-- What a step can add to `OUT`: nothing, if it ends no session other than by reset; up to eight `SYM` beats inside a decode session; the `BYTE`
beats and the `DONE` that end an encode session; the `DONE` that ends a decode session; or the `ERR` of a
fault, after `SYM` beats only in mode `DEC` (R41, R52, R79, R86). -/
def Obligations.EmissionShape : Prop :=
  ∀ s s' : State, step s = .next s' → ∃ beats, s'.out = s.out ++ beats ∧
    ((beats = [] ∧ (s'.mode = s.mode ∨ (s.mode = .idle ∧ s'.mode ≠ .fault) ∨
      s.inp.head? = some .rst)) ∨
    (s.mode = .dec ∧ s'.mode = .dec ∧ ∃ syms : List Byte, syms.length ≤ 8 ∧
      beats = syms.map (fun u => ⟨.sym, u⟩)) ∨
    (s.mode = .enc ∧ s'.mode = .idle ∧ ∃ bytes : List Byte, bytes ≠ [] ∧
      beats = bytes.map (fun b => ⟨.byte, b⟩) ++ [⟨.done, status s⟩]) ∨
    (s.mode = .dec ∧ s'.mode = .idle ∧ ∃ d, beats = [⟨.done, d⟩]) ∨
    (s.mode ≠ .fault ∧ s'.mode = .fault ∧ ∃ (syms : List Byte) (c : Cause), syms.length ≤ 7 ∧
      (s.mode ≠ .dec → syms = []) ∧ beats = syms.map (fun u => ⟨.sym, u⟩) ++ [⟨.err, errData c⟩]))

/-- The output format (R52, R62): `DONE` data has bits 7 to 2 zero and `ERR` data is one of the seven codes
of the block. If the beats of `OUT` are so, every step keeps them so. -/
def Obligations.OutputFormat : Prop :=
  ∀ s s' : State, (∀ o ∈ s.out, o.inFormat = true) → step s = .next s' →
    ∀ o ∈ s'.out, o.inFormat = true

/-- Sessions (R152). A session begins where a `*_BEGIN` is taken in mode `IDLE`, and nowhere else. The data
of an encode session that ends with `DONE` are `BYTE` beats, one that fails emits none; the data of a decode
session are `SYM` beats (R52, R79). While no reset comes and no other session begins, a session is unfinished
exactly as long as the mode is that of an open session; the step that ends one leaves mode `IDLE` if it
succeeded and mode `FAULT` if it failed. A session to which reset comes first is unfinished, whatever
follows. -/
def Obligations.SessionData : Prop :=
  ∀ s : State,
    (.began ∈ stepEvents s ↔ s.mode = .idle ∧ ∃ b rest, s.inp = .beat b :: rest ∧
      (decode b = .ok .encBegin ∨ ∃ r, decode b = .ok (.decBegin r))) ∧
    (s.mode = .enc → ∀ n,
      (∀ data d, sessionResult (runEvents n s) = .succeeded data d → ∀ o ∈ data, o.kind = .byte) ∧
      (∀ data d, sessionResult (runEvents n s) = .failed data d → data = [])) ∧
    (s.mode = .dec → ∀ n,
      (∀ data d, sessionResult (runEvents n s) = .succeeded data d → ∀ o ∈ data, o.kind = .sym) ∧
      (∀ data d, sessionResult (runEvents n s) = .failed data d → ∀ o ∈ data, o.kind = .sym)) ∧
    (s.mode = .enc ∨ s.mode = .dec →
      (∀ s', step s = .next s' → s.inp.head? ≠ some .rst →
        ((∃ data d, sessionResult (stepEvents s) = .succeeded data d) ↔ s'.mode = .idle) ∧
        ((∃ data d, sessionResult (stepEvents s) = .failed data d) ↔ s'.mode = .fault)) ∧
      (∀ n s', stepN n s = .next s' → .began ∉ runEvents n s → .reset ∉ runEvents n s →
        (sessionResult (runEvents n s) = .unfinished ↔ s'.mode = .enc ∨ s'.mode = .dec) ∧
        (s'.mode = .enc ∨ s'.mode = .dec → s'.inp.head? = some .rst →
          ∀ m, sessionResult (runEvents (n + 1 + m) s) = .unfinished)))

/-- With an unbounded bit buffer no step raises `BufferOverflow` (R127). -/
def Obligations.UnboundedNeverOverflows : Prop :=
  ∀ s s' : State, s.cfg.bitbufCap = none → s.faultCode ≠ Cause.code .bufferOverflow →
    step s = .next s' → s'.faultCode ≠ Cause.code .bufferOverflow

/-- Outside mode `DEC` the values of `ROOT`, `NODE` and `FIRST` are never read: whatever they are, the same
moves give the same output and the same other registers, however long the run (R14, R15, R16; it is what
makes the reset values of log 5 harmless, 93 U11). -/
def Obligations.WalkRegistersIrrelevant : Prop :=
  ∀ (n : Nat) (s s' : State) (r m : Byte) (f : Bool), s.mode ≠ .dec → stepN n s = .next s' →
    ∃ t', stepN n { s with root := r, node := m, first := f } = .next t' ∧
      { s' with root := t'.root, node := t'.node, first := t'.first } = t' ∧
      (s'.mode = .dec → t' = s')

/-- Reset, at any time and in any mode (R140, R141): the registers of the reset table, nothing emitted, what
`OUT` holds and the configuration kept; nothing else leaves mode `FAULT`. What `ROOT`, `NODE` and the later
moves become is the model's choice: `Obligations.HostMoveConventions`. -/
def Obligations.ResetAtAnyTime : Prop :=
  (∀ (s : State) (rest : List HostMove), s.inp = .rst :: rest →
    ∃ s', step s = .next s' ∧ s'.mode = .idle ∧ s'.faultCode = 0 ∧ s'.bitbuf = [] ∧ s'.first = false ∧
      s'.corruptPad = false ∧ s'.midcode = false ∧ s'.out = s.out ∧ s'.cfg = s.cfg) ∧
  (∀ s s' : State, s.mode = .fault → step s = .next s' → s'.mode ≠ .fault → s.inp.head? = some .rst)

/-- The model's own choices about the host's moves: with nothing waiting on `IN` the block waits and nothing
changes (log 3); after `rst` the later moves are kept (log 4) and `ROOT` and `NODE` are 0 (log 5). -/
def Obligations.HostMoveConventions : Prop :=
  ∀ s : State, (s.inp = [] → step s = .next s) ∧
    (∀ rest, s.inp = .rst :: rest → ∀ s', step s = .next s' → s'.inp = rest ∧ s'.root = 0 ∧ s'.node = 0)

/-! ### Decoding and the step -/

/-- Words written out from the encodings of R60 and R56 decode to the instructions they stand for. -/
def Obligations.DecodeWords : Prop :=
  decode 0b00100000000#11 = .ok .encBegin ∧ decode 0b01001100001#11 = .ok (.encSym 0x61) ∧
  decode 0b01100000000#11 = .ok .encEnd ∧ decode 0b10000001000#11 = .ok (.decBegin 8) ∧
  decode 0b10110110111#11 = .ok (.decByte 0xB7) ∧ decode 0b11000000000#11 = .ok .decEnd ∧
  decode 0b00000000000#11 = .error .opZero ∧ decode 0b11111111111#11 = .error .opSeven ∧
  decode 0b01100000001#11 = .error .argNonzero ∧
  decodeWord (.hdr 0b10110111#8) = .ok (.hdrPad1 0b0110111) ∧
  decodeWord (.hdr 0b00000001#8) = .ok .hdrPad8 ∧ decodeWord (.hdr 0b00000000#8) = .ok .hdrCorrupt

/-- Decoding the encoding of an instruction gives it back, with every operand at every value. -/
def Obligations.DecodeEncode : Prop :=
  ∀ i : Instr, decodeWord (encode i) = .ok i

/-- A word that decodes is the encoding of what it decodes to: no two words stand for one instruction. -/
def Obligations.EncodeDecode : Prop :=
  ∀ (w : Encoded) (i : Instr), decodeWord w = .ok i → encode i = w

/-- `Decode` by match and mask (R60): a beat decodes to a command of a row exactly when it matches the row;
the six rows are disjoint; a beat that matches none is ILLEGAL; 771 of the 2048 values are commands. -/
def Obligations.DecodeByMatchAndMask : Prop :=
  let commands : Beat → List Instr := fun b =>
    [.encBegin, .encSym (beatArg b), .encEnd, .decBegin (beatArg b), .decByte (beatArg b), .decEnd]
  (∀ b : Beat, ∀ i ∈ commands b, decode b = .ok i ↔ i.row.matches b.toNat = true) ∧
  (∀ b : Beat, (commands b).countP (fun i => i.row.matches b.toNat) ≤ 1) ∧
  (∀ b : Beat, (∃ e, decode b = .error e) ↔ (commands b).all (fun i => !i.row.matches b.toNat) = true) ∧
  (List.range 2048).countP
    (fun w => match decode (BitVec.ofNat 11 w) with | .ok _ => true | .error _ => false) = 771

/-- The illegal beats are `OP = 0b000`, `OP = 0b111`, and `OP` in {001, 011, 110} with a nonzero `ARG`;
taken in mode `IDLE`, `ENC` or `DEC` each raises `IllegalCommand`, in mode `FAULT` it is discarded (R61,
R124). -/
def Obligations.IllegalBeats : Prop :=
  (∀ b : Beat, (∃ e, decode b = .error e) ↔
    (beatOp b = 0b000 ∨ beatOp b = 0b111 ∨
      ((beatOp b = 0b001 ∨ beatOp b = 0b011 ∨ beatOp b = 0b110) ∧ beatArg b ≠ 0))) ∧
  (∀ (s : State) (b : Beat) (e : Illegal) (rest : List HostMove), s.inp = .beat b :: rest →
    decode b = .error e →
    (s.mode ≠ .fault →
      step s = .next { s with bitbuf := [], faultCode := 5, mode := .fault,
                              out := s.out ++ [⟨.err, 5⟩], inp := rest }) ∧
    (s.mode = .fault → step s = .next { s with inp := rest }))

/-- The nine header forms cover all 256 bytes and no two overlap: each byte matches the row of its form
and no other row (R56). -/
def Obligations.HeaderFormsPartition : Prop :=
  let rows : List Row := [Instr.row (.hdrPad1 0), Instr.row (.hdrPad2 0), Instr.row (.hdrPad3 0),
    Instr.row (.hdrPad4 0), Instr.row (.hdrPad5 0), Instr.row (.hdrPad6 0), Instr.row (.hdrPad7 0),
    Instr.row .hdrPad8, Instr.row .hdrCorrupt]
  ∀ b : Byte, rows.filter (fun r => r.matches b.toNat) = [(headerForm b).row]

/-- A header row is the `DEC_BYTE` that carries its byte, in every state (R56, R86, R87): the table of the
nine forms agrees with the scan of pad detection. That a row is an instruction of its own, and what it is
outside the first byte of a session, is the model's reading of the opcode table (log 11, log 12). -/
def Obligations.HeaderRowIsDecByte : Prop :=
  ∀ (b : Byte) (s : State), exec (headerForm b) s = exec (.decByte b) s

/-- A step runs the decoded instruction: when the oldest waiting move is a beat that decodes to `i`,
outside mode `FAULT`, the step is `exec` of `i` with the beat taken off `IN`, and nothing else around it; it
is also `exec` of the row `i` is issued as, which is the model's reading of the opcode table (log 11). -/
def Obligations.StepRunsDecoded : Prop :=
  ∀ (s : State) (b : Beat) (i : Instr) (rest : List HostMove), s.inp = .beat b :: rest →
    s.mode ≠ .fault → decode b = .ok i →
    step s = exec i { s with inp := rest } ∧
    step s = exec (issue i { s with inp := rest }) { s with inp := rest }

/-- A word placed by `withFetchWord` is what the next step runs: a command beat in the state as it is, a
header byte in a state in which the next byte is a header byte. How a word is placed is the model's choice
(log 13). -/
def Obligations.PlacedWordRuns : Prop :=
  (∀ (s : State) (w : Nat) (i : Instr), decodeTableWord 16 w = some i → s.mode ≠ .fault →
    step (s.withFetchWord 16 w) = exec i s) ∧
  (∀ (s : State) (w : Nat) (i : Instr), decodeTableWord 8 w = some i →
    (readyForHeader s).mode = .dec ∧ (readyForHeader s).first = true ∧
    (readyForHeader s).cfg.internalAt (readyForHeader s).node.toNat = true ∧
    step (s.withFetchWord 8 w) = exec i (readyForHeader s))

/-! ### Faults -/

/-- Fault entry, exactly (R132). -/
def Obligations.FaultEntry : Prop :=
  ∀ (c : Cause) (s : State),
    raise c s = { s with bitbuf := [], faultCode := c.code, mode := .fault,
                         out := s.out ++ [⟨.err, c.code.setWidth 8⟩] }

/-- The numbers of the fault codes (R120). -/
def Obligations.FaultCodes : Prop :=
  Cause.code .emptySource = 1 ∧ Cause.code .invalidBitstring = 2 ∧ Cause.code .ioFailure = 3 ∧
  Cause.code .corruptPadding = 4 ∧ Cause.code .illegalCommand = 5 ∧ Cause.code .sequence = 6 ∧
  Cause.code .symbolRange = 7 ∧ Cause.code .bufferOverflow = 8 ∧ Cause.code .treeFault = 9 ∧
  Cause.code .decEmpty = 10

/-- Every pair of a non-`FAULT` mode and a command that is not legal in it raises `Sequence` (R125). A header
row is, in every state, the `DEC_BYTE` of its byte: `Obligations.HeaderRowIsDecByte`. -/
def Obligations.WrongModeRaisesSequence : Prop :=
  ∀ (b : Beat) (i : Instr) (s : State), decode b = .ok i → s.mode ≠ .fault → s.mode ≠ legalMode i →
    exec i s = .next { s with bitbuf := [], faultCode := 6, mode := .fault,
                              out := s.out ++ [⟨.err, 6⟩] }

/-- In mode `FAULT` every beat, legal or not, is taken and discarded, and every instruction leaves the
state as it is (R133). -/
def Obligations.FaultModeDiscards : Prop :=
  ∀ s : State, s.mode = .fault →
    (∀ i : Instr, exec i s = .next s) ∧
    (∀ (b : Beat) (rest : List HostMove), s.inp = .beat b :: rest → step s = .next { s with inp := rest })

/-- The order of the checks (R131): discard in `FAULT`, then ILLEGAL, then the mode, then the command's
own checks in their order. -/
def Obligations.CheckOrder : Prop :=
  ∀ (s : State) (b : Beat) (rest : List HostMove), s.inp = .beat b :: rest →
    (s.mode = .fault → step s = .next { s with inp := rest }) ∧
    (s.mode ≠ .fault → ∀ e, decode b = .error e →
      step s = .next (raise .illegalCommand { s with inp := rest })) ∧
    (s.mode ≠ .fault → ∀ i, decode b = .ok i → s.mode ≠ legalMode i →
      step s = .next (raise .sequence { s with inp := rest })) ∧
    (s.mode = .enc → ∀ sym, decode b = .ok (.encSym sym) → s.cfg.k ≤ sym.toNat →
      step s = .next (raise .symbolRange { s with inp := rest })) ∧
    (s.mode = .enc → ∀ sym, decode b = .ok (.encSym sym) → sym.toNat < s.cfg.k →
      s.cfg.hasCode sym.toNat = false →
      step s = .next (raise .invalidBitstring { s with inp := rest })) ∧
    (s.mode = .enc → ∀ sym, decode b = .ok (.encSym sym) → sym.toNat < s.cfg.k →
      s.cfg.hasCode sym.toNat = true →
      s.cfg.fits (s.bitbuf.length + s.cfg.codeLen sym.toNat) = false →
      step s = .next (raise .bufferOverflow { s with inp := rest })) ∧
    (s.mode = .idle → ∀ r, decode b = .ok (.decBegin r) → s.cfg.internalAt r.toNat = false →
      step s = .next (raise .treeFault { s with inp := rest })) ∧
    (s.mode = .dec → ∀ x, decode b = .ok (.decByte x) →
      ∀ pre bit post syms node, (payloadOf s x).1 = pre ++ bit :: post →
      decodeFrom s.cfg s.root s.node pre = some (syms, node) →
      s.cfg.internalAt node.toNat = true → s.cfg.nodes ≤ childAt s.cfg node.toNat bit →
      step s = .next (raise .treeFault
        (({ s with inp := rest }.received (payloadOf s x).2).walked syms node))) ∧
    (s.mode = .dec → decode b = .ok .decEnd → s.first = true →
      step s = .next (raise .decEmpty { s with inp := rest }))

/-! ### The encoder -/

/-- `ENC_BEGIN` (R70). -/
def Obligations.EncBegin : Prop :=
  decode 0x100#11 = .ok .encBegin ∧
  ∀ s : State,
    (s.mode = .idle → exec .encBegin s =
      .next { s with mode := .enc, bitbuf := [], corruptPad := false, midcode := false }) ∧
    (s.mode = .enc ∨ s.mode = .dec → exec .encBegin s = .next (raise .sequence s))

/-- `ENC_SYM s` (R72): the three checks in their order, then the append of `CodeBits`. -/
def Obligations.EncSym : Prop :=
  (∀ sym : Byte, decode (0x200#11 ||| sym.setWidth 11) = .ok (.encSym sym)) ∧
  ∀ (s : State) (sym : Byte),
    (s.mode = .idle ∨ s.mode = .dec → exec (.encSym sym) s = .next (raise .sequence s)) ∧
    (s.mode = .enc →
      (s.cfg.k ≤ sym.toNat → exec (.encSym sym) s = .next (raise .symbolRange s)) ∧
      (sym.toNat < s.cfg.k →
        (s.cfg.codeLen sym.toNat = 0 ∨ s.cfg.maxLen < s.cfg.codeLen sym.toNat) →
        exec (.encSym sym) s = .next (raise .invalidBitstring s)) ∧
      (sym.toNat < s.cfg.k → 1 ≤ s.cfg.codeLen sym.toNat → s.cfg.codeLen sym.toNat ≤ s.cfg.maxLen →
        (∀ cap, s.cfg.bitbufCap = some cap → cap < s.bitbuf.length + s.cfg.codeLen sym.toNat →
          exec (.encSym sym) s = .next (raise .bufferOverflow s)) ∧
        ((∀ cap, s.cfg.bitbufCap = some cap → s.bitbuf.length + s.cfg.codeLen sym.toNat ≤ cap) →
          exec (.encSym sym) s = .next { s with
            bitbuf := s.bitbuf ++ codeBits (s.cfg.codeEntry sym.toNat) (s.cfg.codeLen sym.toNat) })))

/-- `ENC_END` (R76): the packed bytes, byte 0 first, then `DONE(STATUS)`, which is `DONE(0x00)` while both
flags are 0, as they are throughout an encode session. -/
def Obligations.EncEnd : Prop :=
  decode 0x300#11 = .ok .encEnd ∧
  ∀ s : State,
    (s.mode = .enc →
      exec .encEnd s = .next { s with
        mode := .idle, bitbuf := [],
        out := s.out ++ (pack s.bitbuf).map (fun b => ⟨.byte, b⟩) ++ [⟨.done, status s⟩] } ∧
      (pack s.bitbuf).length = s.bitbuf.length / 8 + 1 ∧
      (s.corruptPad = false → s.midcode = false → status s = 0)) ∧
    (s.mode = .idle ∨ s.mode = .dec → exec .encEnd s = .next (raise .sequence s))

/-- `PadLen` (R73): from 1 to 8; 8 at multiples of 8; only the low three bits matter; it brings the length
to the least multiple of 8 above it. -/
def Obligations.PadLen : Prop :=
  ∀ l : Nat, padLen l = 8 - l % 8 ∧ 1 ≤ padLen l ∧ padLen l ≤ 8 ∧ (l % 8 = 0 → padLen l = 8) ∧
    padLen l = padLen (l % 8) ∧ l + padLen l = 8 * (l / 8 + 1) ∧
    (∀ m, l < m → m % 8 = 0 → l + padLen l ≤ m)

/-- `Header` and `Pack` (R74, R55): the bytes read as a bit-string are the header followed by the payload;
there are `len div 8 + 1` of them; the header has `PadLen` bits; the first byte is never zero. -/
def Obligations.PackShape : Prop :=
  ∀ b : Bits, streamBits (pack b) = header b.length ++ b ∧
    header b.length = List.replicate (padLen b.length - 1) false ++ [true] ∧
    (header b.length).length = padLen b.length ∧
    (pack b).length = b.length / 8 + 1 ∧ ∀ x rest, pack b = x :: rest → x ≠ 0

/-- After `ENC_BEGIN` and the symbols of a text, without a fault, `BITBUF` holds `Encode` of the text
(R71). -/
def Obligations.BufferHoldsEncodedText : Prop :=
  ∀ (s : State) (text : List Byte), s.mode = .idle →
    (∀ t ∈ text, t.toNat < s.cfg.k ∧ s.cfg.hasCode t.toNat = true) →
    s.cfg.fits (encodeText s.cfg text).length = true →
    stepN (text.length + 1) (s.offer (movesOf (.encBegin :: text.map .encSym))) =
      .next { s with mode := .enc, bitbuf := encodeText s.cfg text, corruptPad := false,
                     midcode := false }

/-- A whole encode session (R77): the packed text and `DONE(0x00)`; or, at the first symbol that fails a
check, exactly one `ERR` with the code of that check, and the rest of the session discarded. -/
def Obligations.EncodeSession : Prop :=
  (∀ (s : State) (text : List Byte), s.mode = .idle →
    (∀ t ∈ text, t.toNat < s.cfg.k ∧ s.cfg.hasCode t.toNat = true) →
    s.cfg.fits (encodeText s.cfg text).length = true →
    stepN (text.length + 2) (s.offer (movesOf (encodeProgram text))) =
      .next { s with
        corruptPad := false, midcode := false, bitbuf := [],
        out := s.out ++ (pack (encodeText s.cfg text)).map (fun b => ⟨.byte, b⟩) ++ [⟨.done, 0⟩] }) ∧
  (∀ (s : State) (done : List Byte) (t : Byte) (later : List Byte) (c : Cause), s.mode = .idle →
    (∀ u ∈ done, u.toNat < s.cfg.k ∧ s.cfg.hasCode u.toNat = true) →
    s.cfg.fits (encodeText s.cfg done).length = true →
    ((s.cfg.k ≤ t.toNat ∧ c = .symbolRange) ∨
      (t.toNat < s.cfg.k ∧ s.cfg.hasCode t.toNat = false ∧ c = .invalidBitstring) ∨
      (t.toNat < s.cfg.k ∧ s.cfg.hasCode t.toNat = true ∧
        s.cfg.fits (encodeText s.cfg (done ++ [t])).length = false ∧ c = .bufferOverflow)) →
    stepN ((done ++ t :: later).length + 2) (s.offer (movesOf (encodeProgram (done ++ t :: later)))) =
      .next { s with mode := .fault, faultCode := c.code, bitbuf := [], corruptPad := false,
                     midcode := false, out := s.out ++ [⟨.err, errData c⟩] })

/-- An empty text is legal for the block: `ENC_BEGIN`, `ENC_END` emit `BYTE(0x01) DONE(0x00)` (R78). -/
def Obligations.EmptyTextIsLegal : Prop :=
  ∀ s : State, s.mode = .idle →
    stepN 2 (s.offer [.beat 0x100, .beat 0x300]) =
      .next { s with bitbuf := [], corruptPad := false, midcode := false,
                     out := s.out ++ [⟨.byte, 0x01⟩, ⟨.done, 0x00⟩] }

/-! ### The decoder -/

/-- `DEC_BEGIN r` (R85). -/
def Obligations.DecBegin : Prop :=
  (∀ r : Byte, decode (0x400#11 ||| r.setWidth 11) = .ok (.decBegin r)) ∧
  ∀ (s : State) (r : Byte),
    (s.mode = .enc ∨ s.mode = .dec → exec (.decBegin r) s = .next (raise .sequence s)) ∧
    (s.mode = .idle →
      (s.cfg.nodes ≤ r.toNat → exec (.decBegin r) s = .next (raise .treeFault s)) ∧
      (r.toNat < s.cfg.nodes → nodeTag (s.cfg.treeNode r.toNat) = false →
        exec (.decBegin r) s = .next (raise .treeFault s)) ∧
      (r.toNat < s.cfg.nodes → nodeTag (s.cfg.treeNode r.toNat) = true →
        exec (.decBegin r) s = .next { s with mode := .dec, root := r, node := r, first := true,
                                              corruptPad := false, midcode := false }))

/-- `WalkBit` (R89), where `NODE` indexes an internal node: the child's range is checked first; a leaf's
symbol is emitted as stored and the pointer returns to the root; at an internal node it moves. -/
def Obligations.WalkBit : Prop :=
  ∀ (s : State) (bit : Bool), s.cfg.internalAt s.node.toNat = true →
    (s.cfg.nodes ≤ (child (s.cfg.treeNode s.node.toNat) bit).toNat →
      walkBit bit s = .raised (raise .treeFault s)) ∧
    ((child (s.cfg.treeNode s.node.toNat) bit).toNat < s.cfg.nodes →
      (nodeTag (s.cfg.treeNode (child (s.cfg.treeNode s.node.toNat) bit).toNat) = false →
        walkBit bit s = .next { s with
          out := s.out ++ [⟨.sym, nodeB (s.cfg.treeNode (child (s.cfg.treeNode s.node.toNat) bit).toNat)⟩],
          node := s.root }) ∧
      (nodeTag (s.cfg.treeNode (child (s.cfg.treeNode s.node.toNat) bit).toNat) = true →
        walkBit bit s = .next { s with node := child (s.cfg.treeNode s.node.toNat) bit }))

/-- The model's choice (log 8): a byte with a payload bit stops the machine, by name, in a state whose `NODE`
indexes no internal node. R89 does not define the walk there, and `Obligations.EveryMoveHasAStep` says that no
state that meets the invariants is such. -/
def Obligations.WalkOutsideTreeStops : Prop :=
  ∀ (s : State) (b : Byte), s.mode = .dec → s.cfg.internalAt s.node.toNat = false →
    (payloadOf s b).1 ≠ [] → exec (.decByte b) s = .fault .walkOutsideTree

/-- `PadDetect` (R87): the first 1 bit from the front is the sentinel, the bits after it are the payload;
a byte with none is corrupt and has no payload. -/
def Obligations.PadDetect : Prop :=
  padDetect 0x00 = ([], true) ∧
  ∀ (b : Byte) (i : Nat), i < 8 → b.getLsbD (7 - i) = true →
    (∀ j, j < i → b.getLsbD (7 - j) = false) →
    padDetect b = ((bitsOf b).drop (i + 1), false) ∧ ((bitsOf b).drop (i + 1)).length = 7 - i

/-- `DEC_BYTE b` (R86): the header is stripped from the first byte and a corrupt one sets the flag; the
payload bits are walked, a `SYM` beat for each code completed; a fault is precise at the bit: what the
earlier bits did stands. -/
def Obligations.DecByte : Prop :=
  (∀ b : Byte, decode (0x500#11 ||| b.setWidth 11) = .ok (.decByte b)) ∧
  ∀ (s : State) (b : Byte),
    (s.mode = .idle ∨ s.mode = .enc → exec (.decByte b) s = .next (raise .sequence s)) ∧
    (s.first = true → (payloadOf s b) = padDetect b ∧ (payloadOf s b).1.length ≤ 7) ∧
    (s.first = false → (payloadOf s b) = (bitsOf b, false) ∧ (payloadOf s b).1.length = 8) ∧
    (s.mode = .dec →
      (∀ syms last, decodeFrom s.cfg s.root s.node (payloadOf s b).1 = some (syms, last) →
        exec (.decByte b) s = .next ((s.received (payloadOf s b).2).walked syms last) ∧
        syms.length ≤ (payloadOf s b).1.length) ∧
      (∀ pre bit post syms node, (payloadOf s b).1 = pre ++ bit :: post →
        decodeFrom s.cfg s.root s.node pre = some (syms, node) →
        s.cfg.internalAt node.toNat = true → s.cfg.nodes ≤ childAt s.cfg node.toNat bit →
        exec (.decByte b) s =
          .next (raise .treeFault ((s.received (payloadOf s b).2).walked syms node))))

/-- The nine header forms, each taken as the first byte of its session (R56, R87): the payload field is
walked, the corrupt form only sets its flag. That each is an instruction of its own is the model's reading of
the opcode table (log 11). -/
def Obligations.HeaderForms : Prop :=
  ∀ s : State, s.mode = .dec → s.first = true →
    (∀ (p : BitVec 7) syms last, decodeFrom s.cfg s.root s.node (lowBits p 7) = some (syms, last) →
      exec (.hdrPad1 p) s = .next ((s.received false).walked syms last)) ∧
    (∀ (p : BitVec 6) syms last, decodeFrom s.cfg s.root s.node (lowBits p 6) = some (syms, last) →
      exec (.hdrPad2 p) s = .next ((s.received false).walked syms last)) ∧
    (∀ (p : BitVec 5) syms last, decodeFrom s.cfg s.root s.node (lowBits p 5) = some (syms, last) →
      exec (.hdrPad3 p) s = .next ((s.received false).walked syms last)) ∧
    (∀ (p : BitVec 4) syms last, decodeFrom s.cfg s.root s.node (lowBits p 4) = some (syms, last) →
      exec (.hdrPad4 p) s = .next ((s.received false).walked syms last)) ∧
    (∀ (p : BitVec 3) syms last, decodeFrom s.cfg s.root s.node (lowBits p 3) = some (syms, last) →
      exec (.hdrPad5 p) s = .next ((s.received false).walked syms last)) ∧
    (∀ (p : BitVec 2) syms last, decodeFrom s.cfg s.root s.node (lowBits p 2) = some (syms, last) →
      exec (.hdrPad6 p) s = .next ((s.received false).walked syms last)) ∧
    (∀ (p : BitVec 1) syms last, decodeFrom s.cfg s.root s.node (lowBits p 1) = some (syms, last) →
      exec (.hdrPad7 p) s = .next ((s.received false).walked syms last)) ∧
    exec .hdrPad8 s = .next { s with first := false } ∧
    exec .hdrCorrupt s = .next { s with first := false, corruptPad := true }

/-- `DEC_END` (R91). -/
def Obligations.DecEnd : Prop :=
  decode 0x600#11 = .ok .decEnd ∧
  ∀ s : State,
    (s.mode = .idle ∨ s.mode = .enc → exec .decEnd s = .next (raise .sequence s)) ∧
    (s.mode = .dec → s.first = true → exec .decEnd s = .next (raise .decEmpty s)) ∧
    (s.mode = .dec → s.first = false → s.node ≠ s.root →
      exec .decEnd s = .next { s with
        midcode := true, mode := .idle,
        out := s.out ++ [⟨.done, if s.corruptPad then 0x03 else 0x02⟩] }) ∧
    (s.mode = .dec → s.first = false → s.node = s.root →
      exec .decEnd s = .next { s with
        midcode := false, mode := .idle,
        out := s.out ++ [⟨.done, if s.corruptPad then 0x01 else 0x00⟩] })

/-- `Unpack` (R88): the least of the first eight bits that is 1 ends the header; with none, exactly eight bits
are stripped. Byte by byte it is the payload of the header byte, then the bits of the later bytes. It is not
defined on the empty sequence. -/
def Obligations.UnpackStream : Prop :=
  unpack [] = none ∧
  (∀ (bytes : List Byte) (i : Nat), i < 8 → (streamBits bytes)[i]? = some true →
    (∀ j < i, (streamBits bytes)[j]? = some false) →
    unpack bytes = some ((streamBits bytes).drop (i + 1), false)) ∧
  (∀ bytes : List Byte, bytes ≠ [] → (∀ j < 8, (streamBits bytes)[j]? = some false) →
    unpack bytes = some ((streamBits bytes).drop 8, true)) ∧
  ∀ (b : Byte) (bytes : List Byte),
    unpack (b :: bytes) = some ((padDetect b).1 ++ streamBits bytes, (padDetect b).2)

/-- A whole decode session on which no bit faults (R92): the symbols of the unpacked stream and
`DONE(corrupt + 2 * (node != r))`; without a byte, `ERR(10)`. -/
def Obligations.DecodeSession : Prop :=
  (∀ (s : State) (r : Byte) (bytes : List Byte) (bits : Bits) (corrupt : Bool) (syms : List Byte)
      (last : Byte), s.mode = .idle → s.cfg.internalAt r.toNat = true →
    unpack bytes = some (bits, corrupt) → decodeBits s.cfg r bits = some (syms, last) →
    stepN (bytes.length + 2) (s.offer (movesOf (decodeProgram r bytes))) =
      .next { s with root := r, node := last, first := false, corruptPad := corrupt,
                     midcode := decide (last ≠ r),
                     out := s.out ++ syms.map (fun u => ⟨.sym, u⟩) ++
                       [⟨.done, BitVec.ofNat 8 (corrupt.toNat + 2 * (decide (last ≠ r)).toNat)⟩] }) ∧
  (∀ (s : State) (r : Byte), s.mode = .idle → s.cfg.internalAt r.toNat = true →
    ∃ s', stepN 2 (s.offer (movesOf (decodeProgram r []))) = .next s' ∧
      s'.out = s.out ++ [⟨.err, 10⟩] ∧ s'.mode = .fault)

/-! ### Laws -/

/-- Padding invariant (R93): unpacking what was packed gives it back, and it is not corrupt. -/
def Obligations.UnpackPack : Prop :=
  ∀ b : Bits, unpack (pack b) = some (b, false)

/-- Under `CodeTreeConsistent(r)` the walk of an encoded text gives the text and ends at the root (R95; that
both flags are 0 after the session is in `Obligations.RoundTrip`). -/
def Obligations.DecodeOfEncodedText : Prop :=
  ∀ (c : Config) (r : Byte) (text : List Byte), CodeTreeConsistent c r.toNat →
    (∀ t ∈ text, t.toNat < c.k ∧ c.hasCode t.toNat = true) →
    decodeBits c r (encodeText c text) = some (text, r)

/-- Round trip (R94): under `CodeTreeConsistent(r)`, a text all of whose symbols have codes and which fits
the buffer is encoded to bytes and `DONE(0x00)`, and decoding those bytes emits the text and
`DONE(0x00)`. -/
def Obligations.RoundTrip : Prop :=
  ∀ (s : State) (r : Byte) (text : List Byte), s.mode = .idle → CodeTreeConsistent s.cfg r.toNat →
    (∀ t ∈ text, t.toNat < s.cfg.k ∧ s.cfg.hasCode t.toNat = true) →
    s.cfg.fits (encodeText s.cfg text).length = true →
    ∃ (bytes : List Byte) (t u : State),
      stepN (text.length + 2) (s.offer (movesOf (encodeProgram text))) = .next t ∧
      t.out = s.out ++ bytes.map (fun b => ⟨.byte, b⟩) ++ [⟨.done, 0⟩] ∧
      stepN (bytes.length + 2) (t.offer (movesOf (decodeProgram r bytes))) = .next u ∧
      u.out = t.out ++ text.map (fun x => ⟨.sym, x⟩) ++ [⟨.done, 0⟩] ∧
      u.corruptPad = false ∧ u.midcode = false

/-- Under `TreeWF(r)` no byte of a session opened with `DEC_BEGIN r` faults: the pointer stays at an
internal node of the tree (R110). -/
def Obligations.NoTreeFaultInTree : Prop :=
  ∀ (s : State) (b : Byte), TreeWF s.cfg s.root.toNat → s.mode = .dec →
    (∃ bits, follow s.cfg s.root.toNat bits = some s.node.toNat) →
    s.cfg.internalAt s.node.toNat = true →
    ∃ s', exec (.decByte b) s = .next s' ∧ s'.mode = .dec ∧ s'.root = s.root ∧
      (∃ bits, follow s.cfg s.root.toNat bits = some s'.node.toNat) ∧
      s.cfg.internalAt s'.node.toNat = true

/-- Under `TreeWF(r)` a walk from the root ends at the root exactly when its bits are a concatenation of
complete root-to-leaf paths (R90). -/
def Obligations.EndsAtRootIffWholeCodes : Prop :=
  ∀ (c : Config) (r : Byte) (bits : Bits) (syms : List Byte) (last : Byte), TreeWF c r.toNat →
    decodeBits c r bits = some (syms, last) →
    (last = r ↔ ∃ paths : List Bits, bits = paths.flatten ∧
      ∀ p ∈ paths, ∃ i, follow c r.toNat p = some i ∧ leafAt c i = true)

/-- `CodeTreeConsistent(r)` implies the prefix condition of `CodeWF` (R112, R109). -/
def Obligations.ConsistentIsPrefixFree : Prop :=
  ∀ (c : Config) (r : Nat), CodeTreeConsistent c r →
    ∀ s < c.k, ∀ t < c.k, s ≠ t → c.codeLen s ≠ 0 → c.codeLen t ≠ 0 →
      ¬ (symbolBits c s).IsPrefix (symbolBits c t)

/-! ### Formats -/

/-- Bit order (R35, R9): `Byte(Bits(b)) = b` and `Bits(Byte(p)) = p`, first bit most significant. -/
def Obligations.BitsAndBytes : Prop :=
  (∀ b : Byte, byteOf (bitsOf b) = b) ∧ (∀ p : Bits, p.length = 8 → bitsOf (byteOf p) = p) ∧
  (∀ b : Byte, (bitsOf b)[0]? = some (b.getLsbD 7) ∧ (bitsOf b)[7]? = some (b.getLsbD 0))

/-- `CodeBits(e)` has `LEN` bits, from `CODE[LEN-1]` down to `CODE[0]` (R58). -/
def Obligations.CodeBits : Prop :=
  ∀ (e : CodeEntry) (len : Nat), (codeBits e len).length = len ∧
    ∀ i, i < len → (codeBits e len)[i]? = some (e.getLsbD (len - 1 - i))

/-- `Child(n, bit)` (R59). -/
def Obligations.Child : Prop :=
  ∀ n : NodeWord, child n false = nodeA n ∧ child n true = nodeB n

/-- The fields of the ROM formats (R53, R54): of a node word, and for every `K` of a code entry, whose `LEN`
stands above `MAXLEN` code bits. The cell is the model's 134 bits for every `K`, an entry its low bits
(log 10). -/
def Obligations.RomFields : Prop :=
  (∀ (tag : Bool) (a b : Byte), nodeTag (BitVec.ofBool tag ++ a ++ b) = tag ∧
    nodeA (BitVec.ofBool tag ++ a ++ b) = a ∧ nodeB (BitVec.ofBool tag ++ a ++ b) = b) ∧
  (∀ (c : Config) (len code : Nat), 2 ≤ c.k → c.k ≤ 128 → len < 2 ^ c.lenW → code < 2 ^ c.maxLen →
    c.entryLen (BitVec.ofNat 134 (len * 2 ^ c.maxLen + code)) = len ∧
    ∀ i, i < c.maxLen →
      (BitVec.ofNat 134 (len * 2 ^ c.maxLen + code)).getLsbD i = code.testBit i) ∧
  (∀ (c : Config) (len : BitVec 7) (code : BitVec 127), c.k = 128 →
    c.entryLen (len ++ code) = len.toNat ∧
    ∀ i, i < 127 → (len ++ code).getLsbD i = code.getLsbD i)

/-- `LEN_W` is the least width that holds `0` to `MAXLEN = K - 1` (R6). -/
def Obligations.LengthField : Prop :=
  ∀ c : Config, 2 ≤ c.k →
    c.maxLen = c.k - 1 ∧ c.k - 1 < 2 ^ c.lenW ∧ ∀ w, c.k - 1 < 2 ^ w → c.lenW ≤ w

/-- `STATUS` and the word of an output beat (R20, R51). -/
def Obligations.StatusAndOutputWord : Prop :=
  (∀ s : State, (status s).getLsbD 0 = s.corruptPad ∧ (status s).getLsbD 1 = s.midcode ∧
    (status s).toNat < 4) ∧
  (∀ o : OutBeat, o.word.extractLsb' 8 2 = o.kind.code ∧ o.word.extractLsb' 0 8 = o.data)

/-- The text of a command is read back as the command (R64; the form of the line written, its operand in
hexadecimal, is the model's choice, log 17). -/
def Obligations.TextReadBack : Prop :=
  ∀ (i : Instr) (text : List Char), commandText i = some text → parseLine text = some (some i)

/-! ### The host-side procedures -/

/-- `buildFrequencyTable` with exact arithmetic, which is the model's choice for statements about
probabilities (log 14), on a nonempty source over the domain. Each symbol that occurs has an entry, of
probability count / total (R100, R101); no other has one, but the synthetic `(h + 1) mod K` of probability 0
where `h` is the one symbol that occurs, which then sorts first (R103). The entries are as many as the distinct
symbols, or 2 if that is 1, between 2 and `K`, strictly increasing in the order of R102, with distinct
symbols, and their probabilities sum to 1 (R104). On an empty source it fails (R100). -/
def Obligations.FrequencyTable : Prop :=
  (∀ k, buildFrequencyTable exactArith k [] = none) ∧
  ∀ (k : Nat) (source : List Byte), 2 ≤ k → source ≠ [] → (∀ t ∈ source, t.toNat < k) →
    ∃ table, buildFrequencyTable exactArith k source = some table ∧
      (∀ t ∈ source, ⟨some t.toNat, (source.count t : Rat) / source.length⟩ ∈ table) ∧
      (∀ x ∈ table,
        (∃ t ∈ source, x = ⟨some t.toNat, (source.count t : Rat) / source.length⟩) ∨
        (∃ h ∈ source, (∀ t ∈ source, t = h) ∧ x = ⟨some ((h.toNat + 1) % k), 0⟩)) ∧
      (∀ h, (∀ t ∈ source, t = h) → table = [⟨some ((h.toNat + 1) % k), 0⟩, ⟨some h.toNat, 1⟩]) ∧
      table.length = (if source.dedup.length = 1 then 2 else source.dedup.length) ∧
      2 ≤ table.length ∧ table.length ≤ k ∧
      table.Pairwise (fun x y => x.before exactArith y = true) ∧
      (table.map (·.symbol)).Nodup ∧ (∀ x ∈ table, ∃ t < k, x.symbol = some t) ∧
      (table.map (·.probability)).sum = 1

/-- `buildTree` on a table of `n >= 2` entries, whatever the arithmetic, makes `n - 1` merges in the canonical
layout (R105, R106, R113): `2n - 1` nodes, the leaf of each real symbol at the place of its entry, the root
last, at index `2n - 2`. With at most 128 entries, so that an index fits its field, the nodes from `n` on are
internal, each child of one was made before it, and every node but the root is the child of exactly one. -/
def Obligations.TreeBuilderLayout : Prop :=
  ∀ (P : Type) (pa : ProbArith P) (table : List (SymbolFrequency P)), 2 ≤ table.length →
    ∃ words, buildTree pa table = some (2 * table.length - 2, words) ∧
      words.length = 2 * table.length - 1 ∧
      (∀ (i t : Nat) (p : P), table[i]? = some ⟨some t, p⟩ → words[i]? = some (leafWord t)) ∧
      (table.length ≤ 128 →
        (∀ (j : Nat) (w : NodeWord), table.length ≤ j → words[j]? = some w →
          nodeTag w = true ∧ (nodeA w).toNat < j ∧ (nodeB w).toNat < j) ∧
        ((words.drop table.length).flatMap fun w => [(nodeA w).toNat, (nodeB w).toNat]).Perm
          (List.range (2 * table.length - 2)))
end

