-- ==== Sys2Proof/Laws/State.lean ====
section
/-! SUPPORT. One lemma per field per register update, so that no proof unfolds a record update. -/

namespace Sys2Proof.Machine.State

variable (s : State)

@[simp] theorem setMode_mode (v : Mode) : (s.setMode v).mode = v := (rfl)
@[simp] theorem setMode_faultCode (v : Mode) : (s.setMode v).faultCode = s.faultCode := (rfl)
@[simp] theorem setMode_bitbuf (v : Mode) : (s.setMode v).bitbuf = s.bitbuf := (rfl)
@[simp] theorem setMode_root (v : Mode) : (s.setMode v).root = s.root := (rfl)
@[simp] theorem setMode_node (v : Mode) : (s.setMode v).node = s.node := (rfl)
@[simp] theorem setMode_first (v : Mode) : (s.setMode v).first = s.first := (rfl)
@[simp] theorem setMode_corruptPad (v : Mode) : (s.setMode v).corruptPad = s.corruptPad := (rfl)
@[simp] theorem setMode_midcode (v : Mode) : (s.setMode v).midcode = s.midcode := (rfl)
@[simp] theorem setMode_out (v : Mode) : (s.setMode v).out = s.out := (rfl)
@[simp] theorem setMode_inp (v : Mode) : (s.setMode v).inp = s.inp := (rfl)
@[simp] theorem setMode_cfg (v : Mode) : (s.setMode v).cfg = s.cfg := (rfl)

@[simp] theorem setFaultCode_mode (v : BitVec 4) : (s.setFaultCode v).mode = s.mode := (rfl)
@[simp] theorem setFaultCode_faultCode (v : BitVec 4) : (s.setFaultCode v).faultCode = v := (rfl)
@[simp] theorem setFaultCode_bitbuf (v : BitVec 4) : (s.setFaultCode v).bitbuf = s.bitbuf := (rfl)
@[simp] theorem setFaultCode_root (v : BitVec 4) : (s.setFaultCode v).root = s.root := (rfl)
@[simp] theorem setFaultCode_node (v : BitVec 4) : (s.setFaultCode v).node = s.node := (rfl)
@[simp] theorem setFaultCode_first (v : BitVec 4) : (s.setFaultCode v).first = s.first := (rfl)
@[simp] theorem setFaultCode_corruptPad (v : BitVec 4) : (s.setFaultCode v).corruptPad = s.corruptPad := (rfl)
@[simp] theorem setFaultCode_midcode (v : BitVec 4) : (s.setFaultCode v).midcode = s.midcode := (rfl)
@[simp] theorem setFaultCode_out (v : BitVec 4) : (s.setFaultCode v).out = s.out := (rfl)
@[simp] theorem setFaultCode_inp (v : BitVec 4) : (s.setFaultCode v).inp = s.inp := (rfl)
@[simp] theorem setFaultCode_cfg (v : BitVec 4) : (s.setFaultCode v).cfg = s.cfg := (rfl)

@[simp] theorem setBitbuf_mode (v : Bits) : (s.setBitbuf v).mode = s.mode := (rfl)
@[simp] theorem setBitbuf_faultCode (v : Bits) : (s.setBitbuf v).faultCode = s.faultCode := (rfl)
@[simp] theorem setBitbuf_bitbuf (v : Bits) : (s.setBitbuf v).bitbuf = v := (rfl)
@[simp] theorem setBitbuf_root (v : Bits) : (s.setBitbuf v).root = s.root := (rfl)
@[simp] theorem setBitbuf_node (v : Bits) : (s.setBitbuf v).node = s.node := (rfl)
@[simp] theorem setBitbuf_first (v : Bits) : (s.setBitbuf v).first = s.first := (rfl)
@[simp] theorem setBitbuf_corruptPad (v : Bits) : (s.setBitbuf v).corruptPad = s.corruptPad := (rfl)
@[simp] theorem setBitbuf_midcode (v : Bits) : (s.setBitbuf v).midcode = s.midcode := (rfl)
@[simp] theorem setBitbuf_out (v : Bits) : (s.setBitbuf v).out = s.out := (rfl)
@[simp] theorem setBitbuf_inp (v : Bits) : (s.setBitbuf v).inp = s.inp := (rfl)
@[simp] theorem setBitbuf_cfg (v : Bits) : (s.setBitbuf v).cfg = s.cfg := (rfl)

@[simp] theorem setRoot_mode (v : Byte) : (s.setRoot v).mode = s.mode := (rfl)
@[simp] theorem setRoot_faultCode (v : Byte) : (s.setRoot v).faultCode = s.faultCode := (rfl)
@[simp] theorem setRoot_bitbuf (v : Byte) : (s.setRoot v).bitbuf = s.bitbuf := (rfl)
@[simp] theorem setRoot_root (v : Byte) : (s.setRoot v).root = v := (rfl)
@[simp] theorem setRoot_node (v : Byte) : (s.setRoot v).node = s.node := (rfl)
@[simp] theorem setRoot_first (v : Byte) : (s.setRoot v).first = s.first := (rfl)
@[simp] theorem setRoot_corruptPad (v : Byte) : (s.setRoot v).corruptPad = s.corruptPad := (rfl)
@[simp] theorem setRoot_midcode (v : Byte) : (s.setRoot v).midcode = s.midcode := (rfl)
@[simp] theorem setRoot_out (v : Byte) : (s.setRoot v).out = s.out := (rfl)
@[simp] theorem setRoot_inp (v : Byte) : (s.setRoot v).inp = s.inp := (rfl)
@[simp] theorem setRoot_cfg (v : Byte) : (s.setRoot v).cfg = s.cfg := (rfl)

@[simp] theorem setNode_mode (v : Byte) : (s.setNode v).mode = s.mode := (rfl)
@[simp] theorem setNode_faultCode (v : Byte) : (s.setNode v).faultCode = s.faultCode := (rfl)
@[simp] theorem setNode_bitbuf (v : Byte) : (s.setNode v).bitbuf = s.bitbuf := (rfl)
@[simp] theorem setNode_root (v : Byte) : (s.setNode v).root = s.root := (rfl)
@[simp] theorem setNode_node (v : Byte) : (s.setNode v).node = v := (rfl)
@[simp] theorem setNode_first (v : Byte) : (s.setNode v).first = s.first := (rfl)
@[simp] theorem setNode_corruptPad (v : Byte) : (s.setNode v).corruptPad = s.corruptPad := (rfl)
@[simp] theorem setNode_midcode (v : Byte) : (s.setNode v).midcode = s.midcode := (rfl)
@[simp] theorem setNode_out (v : Byte) : (s.setNode v).out = s.out := (rfl)
@[simp] theorem setNode_inp (v : Byte) : (s.setNode v).inp = s.inp := (rfl)
@[simp] theorem setNode_cfg (v : Byte) : (s.setNode v).cfg = s.cfg := (rfl)

@[simp] theorem setFirst_mode (v : Bool) : (s.setFirst v).mode = s.mode := (rfl)
@[simp] theorem setFirst_faultCode (v : Bool) : (s.setFirst v).faultCode = s.faultCode := (rfl)
@[simp] theorem setFirst_bitbuf (v : Bool) : (s.setFirst v).bitbuf = s.bitbuf := (rfl)
@[simp] theorem setFirst_root (v : Bool) : (s.setFirst v).root = s.root := (rfl)
@[simp] theorem setFirst_node (v : Bool) : (s.setFirst v).node = s.node := (rfl)
@[simp] theorem setFirst_first (v : Bool) : (s.setFirst v).first = v := (rfl)
@[simp] theorem setFirst_corruptPad (v : Bool) : (s.setFirst v).corruptPad = s.corruptPad := (rfl)
@[simp] theorem setFirst_midcode (v : Bool) : (s.setFirst v).midcode = s.midcode := (rfl)
@[simp] theorem setFirst_out (v : Bool) : (s.setFirst v).out = s.out := (rfl)
@[simp] theorem setFirst_inp (v : Bool) : (s.setFirst v).inp = s.inp := (rfl)
@[simp] theorem setFirst_cfg (v : Bool) : (s.setFirst v).cfg = s.cfg := (rfl)

@[simp] theorem setCorruptPad_mode (v : Bool) : (s.setCorruptPad v).mode = s.mode := (rfl)
@[simp] theorem setCorruptPad_faultCode (v : Bool) : (s.setCorruptPad v).faultCode = s.faultCode := (rfl)
@[simp] theorem setCorruptPad_bitbuf (v : Bool) : (s.setCorruptPad v).bitbuf = s.bitbuf := (rfl)
@[simp] theorem setCorruptPad_root (v : Bool) : (s.setCorruptPad v).root = s.root := (rfl)
@[simp] theorem setCorruptPad_node (v : Bool) : (s.setCorruptPad v).node = s.node := (rfl)
@[simp] theorem setCorruptPad_first (v : Bool) : (s.setCorruptPad v).first = s.first := (rfl)
@[simp] theorem setCorruptPad_corruptPad (v : Bool) : (s.setCorruptPad v).corruptPad = v := (rfl)
@[simp] theorem setCorruptPad_midcode (v : Bool) : (s.setCorruptPad v).midcode = s.midcode := (rfl)
@[simp] theorem setCorruptPad_out (v : Bool) : (s.setCorruptPad v).out = s.out := (rfl)
@[simp] theorem setCorruptPad_inp (v : Bool) : (s.setCorruptPad v).inp = s.inp := (rfl)
@[simp] theorem setCorruptPad_cfg (v : Bool) : (s.setCorruptPad v).cfg = s.cfg := (rfl)

@[simp] theorem setMidcode_mode (v : Bool) : (s.setMidcode v).mode = s.mode := (rfl)
@[simp] theorem setMidcode_faultCode (v : Bool) : (s.setMidcode v).faultCode = s.faultCode := (rfl)
@[simp] theorem setMidcode_bitbuf (v : Bool) : (s.setMidcode v).bitbuf = s.bitbuf := (rfl)
@[simp] theorem setMidcode_root (v : Bool) : (s.setMidcode v).root = s.root := (rfl)
@[simp] theorem setMidcode_node (v : Bool) : (s.setMidcode v).node = s.node := (rfl)
@[simp] theorem setMidcode_first (v : Bool) : (s.setMidcode v).first = s.first := (rfl)
@[simp] theorem setMidcode_corruptPad (v : Bool) : (s.setMidcode v).corruptPad = s.corruptPad := (rfl)
@[simp] theorem setMidcode_midcode (v : Bool) : (s.setMidcode v).midcode = v := (rfl)
@[simp] theorem setMidcode_out (v : Bool) : (s.setMidcode v).out = s.out := (rfl)
@[simp] theorem setMidcode_inp (v : Bool) : (s.setMidcode v).inp = s.inp := (rfl)
@[simp] theorem setMidcode_cfg (v : Bool) : (s.setMidcode v).cfg = s.cfg := (rfl)

@[simp] theorem setInp_mode (v : List HostMove) : (s.setInp v).mode = s.mode := (rfl)
@[simp] theorem setInp_faultCode (v : List HostMove) : (s.setInp v).faultCode = s.faultCode := (rfl)
@[simp] theorem setInp_bitbuf (v : List HostMove) : (s.setInp v).bitbuf = s.bitbuf := (rfl)
@[simp] theorem setInp_root (v : List HostMove) : (s.setInp v).root = s.root := (rfl)
@[simp] theorem setInp_node (v : List HostMove) : (s.setInp v).node = s.node := (rfl)
@[simp] theorem setInp_first (v : List HostMove) : (s.setInp v).first = s.first := (rfl)
@[simp] theorem setInp_corruptPad (v : List HostMove) : (s.setInp v).corruptPad = s.corruptPad := (rfl)
@[simp] theorem setInp_midcode (v : List HostMove) : (s.setInp v).midcode = s.midcode := (rfl)
@[simp] theorem setInp_out (v : List HostMove) : (s.setInp v).out = s.out := (rfl)
@[simp] theorem setInp_inp (v : List HostMove) : (s.setInp v).inp = v := (rfl)
@[simp] theorem setInp_cfg (v : List HostMove) : (s.setInp v).cfg = s.cfg := (rfl)

@[simp] theorem setCfg_mode (v : Config) : (s.setCfg v).mode = s.mode := (rfl)
@[simp] theorem setCfg_faultCode (v : Config) : (s.setCfg v).faultCode = s.faultCode := (rfl)
@[simp] theorem setCfg_bitbuf (v : Config) : (s.setCfg v).bitbuf = s.bitbuf := (rfl)
@[simp] theorem setCfg_root (v : Config) : (s.setCfg v).root = s.root := (rfl)
@[simp] theorem setCfg_node (v : Config) : (s.setCfg v).node = s.node := (rfl)
@[simp] theorem setCfg_first (v : Config) : (s.setCfg v).first = s.first := (rfl)
@[simp] theorem setCfg_corruptPad (v : Config) : (s.setCfg v).corruptPad = s.corruptPad := (rfl)
@[simp] theorem setCfg_midcode (v : Config) : (s.setCfg v).midcode = s.midcode := (rfl)
@[simp] theorem setCfg_out (v : Config) : (s.setCfg v).out = s.out := (rfl)
@[simp] theorem setCfg_inp (v : Config) : (s.setCfg v).inp = s.inp := (rfl)
@[simp] theorem setCfg_cfg (v : Config) : (s.setCfg v).cfg = v := (rfl)

@[simp] theorem emitAll_mode (v : List OutBeat) : (s.emitAll v).mode = s.mode := (rfl)
@[simp] theorem emitAll_faultCode (v : List OutBeat) : (s.emitAll v).faultCode = s.faultCode := (rfl)
@[simp] theorem emitAll_bitbuf (v : List OutBeat) : (s.emitAll v).bitbuf = s.bitbuf := (rfl)
@[simp] theorem emitAll_root (v : List OutBeat) : (s.emitAll v).root = s.root := (rfl)
@[simp] theorem emitAll_node (v : List OutBeat) : (s.emitAll v).node = s.node := (rfl)
@[simp] theorem emitAll_first (v : List OutBeat) : (s.emitAll v).first = s.first := (rfl)
@[simp] theorem emitAll_corruptPad (v : List OutBeat) : (s.emitAll v).corruptPad = s.corruptPad := (rfl)
@[simp] theorem emitAll_midcode (v : List OutBeat) : (s.emitAll v).midcode = s.midcode := (rfl)
@[simp] theorem emitAll_out (v : List OutBeat) : (s.emitAll v).out = s.out ++ v := (rfl)
@[simp] theorem emitAll_inp (v : List OutBeat) : (s.emitAll v).inp = s.inp := (rfl)
@[simp] theorem emitAll_cfg (v : List OutBeat) : (s.emitAll v).cfg = s.cfg := (rfl)

@[simp] theorem emit_mode (k : Kind) (d : Byte) : (s.emit k d).mode = s.mode := (rfl)
@[simp] theorem emit_faultCode (k : Kind) (d : Byte) : (s.emit k d).faultCode = s.faultCode := (rfl)
@[simp] theorem emit_bitbuf (k : Kind) (d : Byte) : (s.emit k d).bitbuf = s.bitbuf := (rfl)
@[simp] theorem emit_root (k : Kind) (d : Byte) : (s.emit k d).root = s.root := (rfl)
@[simp] theorem emit_node (k : Kind) (d : Byte) : (s.emit k d).node = s.node := (rfl)
@[simp] theorem emit_first (k : Kind) (d : Byte) : (s.emit k d).first = s.first := (rfl)
@[simp] theorem emit_corruptPad (k : Kind) (d : Byte) : (s.emit k d).corruptPad = s.corruptPad := (rfl)
@[simp] theorem emit_midcode (k : Kind) (d : Byte) : (s.emit k d).midcode = s.midcode := (rfl)
@[simp] theorem emit_out (k : Kind) (d : Byte) : (s.emit k d).out = s.out ++ [⟨k, d⟩] := (rfl)
@[simp] theorem emit_inp (k : Kind) (d : Byte) : (s.emit k d).inp = s.inp := (rfl)
@[simp] theorem emit_cfg (k : Kind) (d : Byte) : (s.emit k d).cfg = s.cfg := (rfl)

end Sys2Proof.Machine.State
end

