-- ==== Sys2Proof/Laws/Ops.lean ====
section
/-! SUPPORT. The spec lemmas of the shared operations: the fields after fault entry, reset and the opening
and closing of a session; everything the mode check and one bit of the walk can do. -/

namespace Sys2Proof.Machine

variable (s : State)

@[simp] theorem raise_mode (c : Cause) : (raise c s).mode = .fault := (rfl)
@[simp] theorem raise_faultCode (c : Cause) : (raise c s).faultCode = c.code := (rfl)
@[simp] theorem raise_bitbuf (c : Cause) : (raise c s).bitbuf = [] := (rfl)
@[simp] theorem raise_root (c : Cause) : (raise c s).root = s.root := (rfl)
@[simp] theorem raise_node (c : Cause) : (raise c s).node = s.node := (rfl)
@[simp] theorem raise_first (c : Cause) : (raise c s).first = s.first := (rfl)
@[simp] theorem raise_corruptPad (c : Cause) : (raise c s).corruptPad = s.corruptPad := (rfl)
@[simp] theorem raise_midcode (c : Cause) : (raise c s).midcode = s.midcode := (rfl)
@[simp] theorem raise_out (c : Cause) : (raise c s).out = s.out ++ [⟨.err, errData c⟩] := (rfl)
@[simp] theorem raise_inp (c : Cause) : (raise c s).inp = s.inp := (rfl)
@[simp] theorem raise_cfg (c : Cause) : (raise c s).cfg = s.cfg := (rfl)

@[simp] theorem applyReset_mode : (applyReset s).mode = .idle := (rfl)
@[simp] theorem applyReset_faultCode : (applyReset s).faultCode = 0#4 := (rfl)
@[simp] theorem applyReset_bitbuf : (applyReset s).bitbuf = [] := (rfl)
@[simp] theorem applyReset_root : (applyReset s).root = 0#8 := (rfl)
@[simp] theorem applyReset_node : (applyReset s).node = 0#8 := (rfl)
@[simp] theorem applyReset_first : (applyReset s).first = false := (rfl)
@[simp] theorem applyReset_corruptPad : (applyReset s).corruptPad = false := (rfl)
@[simp] theorem applyReset_midcode : (applyReset s).midcode = false := (rfl)
@[simp] theorem applyReset_out : (applyReset s).out = s.out := (rfl)
@[simp] theorem applyReset_inp : (applyReset s).inp = s.inp := (rfl)
@[simp] theorem applyReset_cfg : (applyReset s).cfg = s.cfg := (rfl)

@[simp] theorem openDecode_mode (r : Byte) : (openDecode r s).mode = .dec := (rfl)
@[simp] theorem openDecode_faultCode (r : Byte) : (openDecode r s).faultCode = s.faultCode := (rfl)
@[simp] theorem openDecode_bitbuf (r : Byte) : (openDecode r s).bitbuf = s.bitbuf := (rfl)
@[simp] theorem openDecode_root (r : Byte) : (openDecode r s).root = r := (rfl)
@[simp] theorem openDecode_node (r : Byte) : (openDecode r s).node = r := (rfl)
@[simp] theorem openDecode_first (r : Byte) : (openDecode r s).first = true := (rfl)
@[simp] theorem openDecode_corruptPad (r : Byte) : (openDecode r s).corruptPad = false := (rfl)
@[simp] theorem openDecode_midcode (r : Byte) : (openDecode r s).midcode = false := (rfl)
@[simp] theorem openDecode_out (r : Byte) : (openDecode r s).out = s.out := (rfl)
@[simp] theorem openDecode_inp (r : Byte) : (openDecode r s).inp = s.inp := (rfl)
@[simp] theorem openDecode_cfg (r : Byte) : (openDecode r s).cfg = s.cfg := (rfl)

@[simp] theorem openEncode_mode : (openEncode s).mode = .enc := (rfl)
@[simp] theorem openEncode_faultCode : (openEncode s).faultCode = s.faultCode := (rfl)
@[simp] theorem openEncode_bitbuf : (openEncode s).bitbuf = [] := (rfl)
@[simp] theorem openEncode_root : (openEncode s).root = s.root := (rfl)
@[simp] theorem openEncode_node : (openEncode s).node = s.node := (rfl)
@[simp] theorem openEncode_first : (openEncode s).first = s.first := (rfl)
@[simp] theorem openEncode_corruptPad : (openEncode s).corruptPad = false := (rfl)
@[simp] theorem openEncode_midcode : (openEncode s).midcode = false := (rfl)
@[simp] theorem openEncode_out : (openEncode s).out = s.out := (rfl)
@[simp] theorem openEncode_inp : (openEncode s).inp = s.inp := (rfl)
@[simp] theorem openEncode_cfg : (openEncode s).cfg = s.cfg := (rfl)

@[simp] theorem closeEncode_mode : (closeEncode s).mode = .idle := (rfl)
@[simp] theorem closeEncode_faultCode : (closeEncode s).faultCode = s.faultCode := (rfl)
@[simp] theorem closeEncode_bitbuf : (closeEncode s).bitbuf = [] := (rfl)
@[simp] theorem closeEncode_root : (closeEncode s).root = s.root := (rfl)
@[simp] theorem closeEncode_node : (closeEncode s).node = s.node := (rfl)
@[simp] theorem closeEncode_first : (closeEncode s).first = s.first := (rfl)
@[simp] theorem closeEncode_corruptPad : (closeEncode s).corruptPad = s.corruptPad := (rfl)
@[simp] theorem closeEncode_midcode : (closeEncode s).midcode = s.midcode := (rfl)
@[simp] theorem closeEncode_out : (closeEncode s).out = s.out ++ streamBeats s := (rfl)
@[simp] theorem closeEncode_inp : (closeEncode s).inp = s.inp := (rfl)
@[simp] theorem closeEncode_cfg : (closeEncode s).cfg = s.cfg := (rfl)

@[simp] theorem takeHeader_mode (corrupt : Bool) : (takeHeader corrupt s).mode = s.mode := by
  cases corrupt <;> rfl
@[simp] theorem takeHeader_faultCode (corrupt : Bool) : (takeHeader corrupt s).faultCode = s.faultCode := by
  cases corrupt <;> rfl
@[simp] theorem takeHeader_bitbuf (corrupt : Bool) : (takeHeader corrupt s).bitbuf = s.bitbuf := by
  cases corrupt <;> rfl
@[simp] theorem takeHeader_root (corrupt : Bool) : (takeHeader corrupt s).root = s.root := by
  cases corrupt <;> rfl
@[simp] theorem takeHeader_node (corrupt : Bool) : (takeHeader corrupt s).node = s.node := by
  cases corrupt <;> rfl
@[simp] theorem takeHeader_first (corrupt : Bool) : (takeHeader corrupt s).first = false := by
  cases corrupt <;> rfl
@[simp] theorem takeHeader_corruptPad (corrupt : Bool) : (takeHeader corrupt s).corruptPad = (corrupt || s.corruptPad) := by
  cases corrupt <;> rfl
@[simp] theorem takeHeader_midcode (corrupt : Bool) : (takeHeader corrupt s).midcode = s.midcode := by
  cases corrupt <;> rfl
@[simp] theorem takeHeader_out (corrupt : Bool) : (takeHeader corrupt s).out = s.out := by
  cases corrupt <;> rfl
@[simp] theorem takeHeader_inp (corrupt : Bool) : (takeHeader corrupt s).inp = s.inp := by
  cases corrupt <;> rfl
@[simp] theorem takeHeader_cfg (corrupt : Bool) : (takeHeader corrupt s).cfg = s.cfg := by
  cases corrupt <;> rfl

/-- The code of a cause is never 0, which stands for "none" (R120). -/
@[simp] theorem Cause.code_ne_zero (c : Cause) : c.code ≠ 0#4 := by cases c <;> decide

section InMode

variable {s} {m : Mode} {body : State → Host.Outcome State Fault Refusal}

theorem inMode_of_fault (h : s.mode = .fault) : inMode m body s = .next s := by simp [inMode, h]

theorem inMode_of_eq (h : s.mode = m) (hm : m ≠ .fault) : inMode m body s = body s := by
  subst h; simp [inMode, hm]

theorem inMode_of_ne (hf : s.mode ≠ .fault) (h : s.mode ≠ m) :
    inMode m body s = .next (raise .sequence s) := by simp [inMode, hf, h]

/-- Everything the mode check can do: discard, raise `Sequence`, or run the command (R125, R131, R133). -/
theorem inMode_cases (m : Mode) (body : State → Host.Outcome State Fault Refusal) (s : State) :
    (s.mode = .fault ∧ inMode m body s = .next s) ∨
    (s.mode ≠ .fault ∧ s.mode ≠ m ∧ inMode m body s = .next (raise .sequence s)) ∨
    (s.mode ≠ .fault ∧ s.mode = m ∧ inMode m body s = body s) := by
  by_cases hf : s.mode = .fault
  · exact .inl ⟨hf, inMode_of_fault hf⟩
  · by_cases h : s.mode = m
    · exact .inr (.inr ⟨hf, h, inMode_of_eq h (h ▸ hf)⟩)
    · exact .inr (.inl ⟨hf, h, inMode_of_ne hf h⟩)

end InMode

/-- The walk pointer's state after a child is reached and, at a leaf, its symbol is emitted (R89). -/
def afterStep (s : State) : Byte × Option Byte → State
  | (next, none) => s.setNode next
  | (_, some sym) => (s.emit .sym sym).setNode s.root

/-- Everything one bit of the walk can do (R89): it follows `walkStep`, or it raises `TreeFault` at a child
outside the ROM, or it has no start. -/
theorem walkBit_cases (bit : Bool) (s : State) :
    (s.cfg.internalAt s.node.toNat = false ∧ walkBit bit s = .stuck) ∨
    (s.cfg.internalAt s.node.toNat = true ∧
      s.cfg.nodes ≤ (child (s.cfg.treeNode s.node.toNat) bit).toNat ∧
      walkStep s.cfg s.node bit = none ∧ walkBit bit s = .raised (raise .treeFault s)) ∨
    (s.cfg.internalAt s.node.toNat = true ∧
      ∃ p, walkStep s.cfg s.node bit = some p ∧ walkBit bit s = .next (afterStep s p)) := by
  by_cases hi : s.cfg.internalAt s.node.toNat = true
  · by_cases hc : s.cfg.nodes ≤ (child (s.cfg.treeNode s.node.toNat) bit).toNat
    · exact .inr (.inl ⟨hi, hc, by simp [walkStep, hi, hc], by simp [walkBit, arriveAt, hi, hc]⟩)
    · refine .inr (.inr ⟨hi, ?_⟩)
      by_cases ht : nodeTag (s.cfg.treeNode (child (s.cfg.treeNode s.node.toNat) bit).toNat) = true
      · exact ⟨(_, none), by simp [walkStep, hi, hc, ht]; rfl, by simp [walkBit, arriveAt, hi, hc, ht, afterStep]⟩
      · exact ⟨(_, some _), by simp [walkStep, hi, hc, ht]; exact ⟨rfl, rfl⟩,
          by simp [walkBit, arriveAt, hi, hc, ht, afterStep]⟩
  · exact .inl ⟨by simpa using hi, by simp [walkBit, hi]⟩

end Sys2Proof.Machine
end

