-- ==== Sys2Proof/Laws/Walk.lean ====
section
/-! SUPPORT. The walk of a whole bit-string: it computes `decodeFrom` (R90), and everything else it can do
is a `TreeFault` precise at the bit, or having no start. -/

namespace Sys2Proof.Machine

section Walked

variable (s : State) (syms : List Byte) (last : Byte)

@[simp] theorem walked_mode : (s.walked syms last).mode = s.mode := (rfl)
@[simp] theorem walked_faultCode : (s.walked syms last).faultCode = s.faultCode := (rfl)
@[simp] theorem walked_bitbuf : (s.walked syms last).bitbuf = s.bitbuf := (rfl)
@[simp] theorem walked_root : (s.walked syms last).root = s.root := (rfl)
@[simp] theorem walked_node : (s.walked syms last).node = last := (rfl)
@[simp] theorem walked_first : (s.walked syms last).first = s.first := (rfl)
@[simp] theorem walked_corruptPad : (s.walked syms last).corruptPad = s.corruptPad := (rfl)
@[simp] theorem walked_midcode : (s.walked syms last).midcode = s.midcode := (rfl)
@[simp] theorem walked_out :
    (s.walked syms last).out = s.out ++ syms.map (fun u => ⟨.sym, u⟩) := (rfl)
@[simp] theorem walked_inp : (s.walked syms last).inp = s.inp := (rfl)
@[simp] theorem walked_cfg : (s.walked syms last).cfg = s.cfg := (rfl)

theorem walked_nil : s.walked [] s.node = s := by
  cases s; simp [State.walked, State.emitAll, State.setNode]

theorem afterStep_none (next : Byte) : afterStep s (next, none) = s.walked [] next := by
  cases s; simp [afterStep, State.walked, State.emitAll, State.setNode]

theorem afterStep_some (next sym : Byte) : afterStep s (next, some sym) = s.walked [sym] s.root := rfl

theorem walked_walked (syms' : List Byte) (last' : Byte) :
    (s.walked syms last).walked syms' last' = s.walked (syms ++ syms') last' := by
  simp [State.walked, State.emitAll, State.setNode]

end Walked

/-- One more bit in front of a completed walk. -/
theorem decodeFrom_cons_none {c : Config} {root node next : Byte} {bit : Bool} {rest : Bits}
    (h : walkStep c node bit = some (next, none)) :
    decodeFrom c root node (bit :: rest) = decodeFrom c root next rest := by
  simp [decodeFrom, h]

theorem decodeFrom_cons_some {c : Config} {root node next sym : Byte} {bit : Bool} {rest : Bits}
    (h : walkStep c node bit = some (next, some sym)) :
    decodeFrom c root node (bit :: rest) =
      (decodeFrom c root root rest).map (fun p => (sym :: p.1, p.2)) := by
  simp only [decodeFrom, h]
  cases decodeFrom c root root rest <;> rfl

/-- Everything the walk of a bit-string can do (R86, R89, R90). -/
theorem walkBits_cases : ∀ (bits : Bits) (s : State),
    (∃ syms last, decodeFrom s.cfg s.root s.node bits = some (syms, last) ∧
      walkBits bits s = .next (s.walked syms last)) ∨
    (decodeFrom s.cfg s.root s.node bits = none ∧
      ∃ pre bit post syms node, bits = pre ++ bit :: post ∧
        decodeFrom s.cfg s.root s.node pre = some (syms, node) ∧
        s.cfg.internalAt node.toNat = true ∧
        s.cfg.nodes ≤ (child (s.cfg.treeNode node.toNat) bit).toNat ∧
        walkBits bits s = .raised (raise .treeFault (s.walked syms node))) ∨
    (decodeFrom s.cfg s.root s.node bits = none ∧
      ∃ pre bit post syms node, bits = pre ++ bit :: post ∧
        decodeFrom s.cfg s.root s.node pre = some (syms, node) ∧
        s.cfg.internalAt node.toNat = false ∧ walkBits bits s = .stuck)
  | [], s => .inl ⟨[], s.node, rfl, by rw [walked_nil]; rfl⟩
  | bit :: rest, s => by
    rcases walkBit_cases bit s with ⟨hi, hw⟩ | ⟨hi, hc, hs, hw⟩ | ⟨hi, ⟨next, sym⟩, hs, hw⟩
    · refine .inr (.inr ⟨by simp [decodeFrom, walkStep, hi], [], bit, rest, [], s.node, rfl, rfl, hi, ?_⟩)
      simp [walkBits, hw]
    · refine .inr (.inl ⟨by simp [decodeFrom, hs], [], bit, rest, [], s.node, rfl, rfl, hi, hc, ?_⟩)
      simp [walkBits, hw, walked_nil]
    · have hw' : walkBits (bit :: rest) s = walkBits rest (afterStep s (next, sym)) := by
        simp [walkBits, hw]
      cases sym with
      | none =>
        rw [afterStep_none] at hw'
        have ih := walkBits_cases rest (s.walked [] next)
        simp only [walked_cfg, walked_root, walked_node, walked_walked, List.nil_append] at ih
        rw [hw', decodeFrom_cons_none hs]
        rcases ih with h | ⟨hn, pre, b, post, syms, node, hb, hd, hrest⟩ |
          ⟨hn, pre, b, post, syms, node, hb, hd, hrest⟩
        · exact .inl h
        · exact .inr (.inl ⟨hn, bit :: pre, b, post, syms, node, by simp [hb],
            by rw [decodeFrom_cons_none hs, hd], hrest⟩)
        · exact .inr (.inr ⟨hn, bit :: pre, b, post, syms, node, by simp [hb],
            by rw [decodeFrom_cons_none hs, hd], hrest⟩)
      | some sym =>
        rw [afterStep_some] at hw'
        have ih := walkBits_cases rest (s.walked [sym] s.root)
        simp only [walked_cfg, walked_root, walked_node, walked_walked, List.singleton_append] at ih
        rw [hw', decodeFrom_cons_some hs]
        rcases ih with ⟨syms, last, hd, hn⟩ | ⟨hn, pre, b, post, syms, node, hb, hd, hrest⟩ |
          ⟨hn, pre, b, post, syms, node, hb, hd, hrest⟩
        · exact .inl ⟨sym :: syms, last, by simp [hd], hn⟩
        · exact .inr (.inl ⟨by simp [hn], bit :: pre, b, post, sym :: syms, node, by simp [hb],
            by rw [decodeFrom_cons_some hs, hd]; rfl, hrest⟩)
        · exact .inr (.inr ⟨by simp [hn], bit :: pre, b, post, sym :: syms, node, by simp [hb],
            by rw [decodeFrom_cons_some hs, hd]; rfl, hrest⟩)

/-- A walk that `decodeFrom` completes ends in the state it computes. -/
theorem walkBits_of_decodeFrom {bits : Bits} {s : State} {syms : List Byte} {last : Byte}
    (h : decodeFrom s.cfg s.root s.node bits = some (syms, last)) :
    walkBits bits s = .next (s.walked syms last) := by
  rcases walkBits_cases bits s with ⟨syms', last', hd, hw⟩ | ⟨hd, _⟩ | ⟨hd, _⟩
  · rw [h] at hd; cases hd; exact hw
  · rw [h] at hd; cases hd
  · rw [h] at hd; cases hd

theorem walkStep_internal {c : Config} {node next : Byte} {bit : Bool}
    (h : walkStep c node bit = some (next, none)) : c.internalAt next.toNat = true := by
  simp only [walkStep] at h
  split at h
  · split at h
    · cases h
    · split at h
      · rename_i ht hn; cases h; simp [Config.internalAt, hn]; omega
      · cases h
  · cases h

/-- The walk pointer stays at an internal node (R15). -/
theorem decodeFrom_internal {c : Config} {root : Byte} (hr : c.internalAt root.toNat = true) :
    ∀ {bits : Bits} {node : Byte} {syms : List Byte} {last : Byte},
      c.internalAt node.toNat = true → decodeFrom c root node bits = some (syms, last) →
      c.internalAt last.toNat = true
  | [], node, syms, last, hn, h => by cases h; exact hn
  | bit :: rest, node, syms, last, hn, h => by
    rcases hs : walkStep c node bit with _ | ⟨next, _ | sym⟩
    · simp [decodeFrom, hs] at h
    · rw [decodeFrom_cons_none hs] at h
      exact decodeFrom_internal hr (walkStep_internal hs) h
    · rw [decodeFrom_cons_some hs] at h
      cases hd : decodeFrom c root root rest with
      | none => simp [hd] at h
      | some p => simp [hd] at h; exact h.2 ▸ decodeFrom_internal hr hr hd

/-- From an internal node, with an internal root, a walk always has a start. -/
theorem walkBits_ne_stuck {s : State} {bits : Bits} (hr : s.cfg.internalAt s.root.toNat = true)
    (hn : s.cfg.internalAt s.node.toNat = true) : walkBits bits s ≠ .stuck := by
  rcases walkBits_cases bits s with ⟨_, _, _, hw⟩ | ⟨_, _, _, _, _, _, _, _, _, _, hw⟩ |
    ⟨_, _, _, _, _, _, _, hd, hi, _⟩
  · simp [hw]
  · simp [hw]
  · rw [decodeFrom_internal hr hn hd] at hi; cases hi

end Sys2Proof.Machine
end

