-- ==== Sys2Proof/Laws/Exec.lean ====
section
/-! SUPPORT. Everything an instruction, a beat and a step can do, said once: the mode check around the
instruction's own effect, and the list of effects. -/

namespace Sys2Proof.Machine

/-- The effect of an instruction in the mode it is legal in. -/
def bodyOf : Instr → State → Host.Outcome State Fault Refusal
  | .encBegin => fun s => .next (openEncode s)
  | .encSym sym => fun s => .next (appendSymbol sym s)
  | .encEnd => fun s => .next (closeEncode s)
  | .decBegin r => fun s => .next (beginDecode r s)
  | .decByte b => takeByte (bitsOf b) (padDetect b)
  | .decEnd => fun s => .next (closeDecode s)
  | .hdrPad1 p => takeByte (sentinel 1 ++ lowBits p 7) (lowBits p 7, false)
  | .hdrPad2 p => takeByte (sentinel 2 ++ lowBits p 6) (lowBits p 6, false)
  | .hdrPad3 p => takeByte (sentinel 3 ++ lowBits p 5) (lowBits p 5, false)
  | .hdrPad4 p => takeByte (sentinel 4 ++ lowBits p 4) (lowBits p 4, false)
  | .hdrPad5 p => takeByte (sentinel 5 ++ lowBits p 3) (lowBits p 3, false)
  | .hdrPad6 p => takeByte (sentinel 6 ++ lowBits p 2) (lowBits p 2, false)
  | .hdrPad7 p => takeByte (sentinel 7 ++ lowBits p 1) (lowBits p 1, false)
  | .hdrPad8 => takeByte (sentinel 8 ++ []) ([], false)
  | .hdrCorrupt => takeByte (List.replicate 8 false) ([], true)

/-- Every instruction is its mode check around its effect. -/
theorem exec_eq_inMode (i : Instr) (s : State) : exec i s = inMode (legalMode i) (bodyOf i) s := by
  cases i <;> rfl

theorem legalMode_ne_fault (i : Instr) : legalMode i ≠ .fault := by cases i <;> simp [legalMode]

/-- In mode `FAULT` every instruction leaves the state as it is. -/
theorem exec_of_fault {i : Instr} {s : State} (h : s.mode = .fault) : exec i s = .next s := by
  rw [exec_eq_inMode, inMode_of_fault h]

/-- In its legal mode an instruction has its effect. -/
theorem exec_of_legal {i : Instr} {s : State} (h : s.mode = legalMode i) :
    exec i s = bodyOf i s := by
  rw [exec_eq_inMode, inMode_of_eq h (legalMode_ne_fault i)]

theorem lowBits_length {w : Nat} (v : BitVec w) : ∀ n, (lowBits v n).length = n
  | 0 => rfl
  | n + 1 => by simp [lowBits, lowBits_length v n]

theorem bitsOf_length (b : Byte) : (bitsOf b).length = 8 := lowBits_length b 8

/-- The payload of a header byte has at most seven bits. -/
theorem padDetect_length (b : Byte) : (padDetect b).1.length ≤ 7 := by
  simp only [padDetect, stripHeader]
  split
  · simp [bitsOf_length]
  · simp

/-- The walk of a decoded byte: how far it goes does not depend on `IN`, `OUT` or the flags. -/
structure ByteTaken (s : State) (s' : State) : Prop where
  /-- The bits walked, at most eight, and how the byte ends. -/
  effect : ∃ bits corrupt, bits.length ≤ 8 ∧ (s.first = false → corrupt = false) ∧
    ((∃ syms last, decodeFrom s.cfg s.root s.node bits = some (syms, last) ∧
        s' = (s.received corrupt).walked syms last) ∨
      ∃ pre bit post syms node, bits = pre ++ bit :: post ∧
        decodeFrom s.cfg s.root s.node pre = some (syms, node) ∧
        s.cfg.internalAt node.toNat = true ∧
        s.cfg.nodes ≤ (child (s.cfg.treeNode node.toNat) bit).toNat ∧
        s' = raise .treeFault ((s.received corrupt).walked syms node))

theorem takeHeader_eq_received (corrupt : Bool) (s : State) :
    takeHeader corrupt s = s.received corrupt := by
  cases s; cases corrupt <;> simp [takeHeader, State.received, State.setCorruptPad, State.setFirst]

theorem received_of_not_first {s : State} (h : s.first = false) : s.received false = s := by
  cases s; simp_all [State.received]

section Received

variable (s : State) (corrupt : Bool)

@[simp] theorem received_mode : (s.received corrupt).mode = s.mode := (rfl)
@[simp] theorem received_faultCode : (s.received corrupt).faultCode = s.faultCode := (rfl)
@[simp] theorem received_bitbuf : (s.received corrupt).bitbuf = s.bitbuf := (rfl)
@[simp] theorem received_root : (s.received corrupt).root = s.root := (rfl)
@[simp] theorem received_node : (s.received corrupt).node = s.node := (rfl)
@[simp] theorem received_first : (s.received corrupt).first = false := (rfl)
@[simp] theorem received_corruptPad :
    (s.received corrupt).corruptPad = (s.corruptPad || corrupt) := (rfl)
@[simp] theorem received_midcode : (s.received corrupt).midcode = s.midcode := (rfl)
@[simp] theorem received_out : (s.received corrupt).out = s.out := (rfl)
@[simp] theorem received_inp : (s.received corrupt).inp = s.inp := (rfl)
@[simp] theorem received_cfg : (s.received corrupt).cfg = s.cfg := (rfl)

end Received

/-- A byte taken in mode `DEC` walks the bits of its case from the state received (R86). -/
theorem takeByte_eq (all : Bits) (hdr : Bits × Bool) (s : State) :
    takeByte all hdr s =
      if s.first then (walkBits hdr.1 (s.received hdr.2)).outcome
      else (walkBits all (s.received false)).outcome := by
  unfold takeByte
  cases h : s.first
  · simp [received_of_not_first h]
  · simp [takeHeader_eq_received]

/-- The walk of some bits from a state received, as an outcome. -/
theorem outcome_cases {bits : Bits} {corrupt : Bool} {s s' : State} (hl : bits.length ≤ 8)
    (hc : s.first = false → corrupt = false)
    (h : (walkBits bits (s.received corrupt)).outcome = .next s') : ByteTaken s s' := by
  refine ⟨bits, corrupt, hl, hc, ?_⟩
  rcases walkBits_cases bits (s.received corrupt) with ⟨syms, last, hd, hw⟩ |
    ⟨_, pre, bit, post, syms, node, hb, hd, hi, hn, hw⟩ | ⟨_, _, _, _, _, _, _, _, _, hw⟩
  · rw [hw] at h; cases h; exact .inl ⟨syms, last, hd, rfl⟩
  · rw [hw] at h; cases h; exact .inr ⟨pre, bit, post, syms, node, hb, hd, hi, hn, rfl⟩
  · rw [hw] at h; cases h

theorem byteTaken_of_takeByte {all : Bits} {hdr : Bits × Bool} {s s' : State}
    (ha : all.length ≤ 8) (hh : hdr.1.length ≤ 8) (h : takeByte all hdr s = .next s') :
    ByteTaken s s' := by
  rw [takeByte_eq] at h
  cases hf : s.first
  · simp only [hf] at h
    exact outcome_cases ha (fun _ => rfl) h
  · simp only [hf] at h
    exact outcome_cases (corrupt := hdr.2) hh (fun hff => by rw [hf] at hff; cases hff) h

/-- Everything an effect that answers a next state can be. -/
theorem bodyOf_cases {i : Instr} {s s' : State} (h : bodyOf i s = .next s') :
    (i = .encBegin ∧ s' = openEncode s) ∨
    (∃ sym, i = .encSym sym ∧
      ((∃ c ∈ ([.symbolRange, .invalidBitstring, .bufferOverflow] : List Cause), s' = raise c s ∧
          (c = .bufferOverflow → s.cfg.bitbufCap ≠ none)) ∨
        (s.cfg.fits (s.bitbuf.length + s.cfg.codeLen sym.toNat) = true ∧
          s' = s.setBitbuf (s.bitbuf ++ symbolBits s.cfg sym.toNat)))) ∨
    (i = .encEnd ∧ s' = closeEncode s) ∨
    (∃ r, i = .decBegin r ∧
      ((s.cfg.internalAt r.toNat = true ∧ s' = openDecode r s) ∨ s' = raise .treeFault s)) ∨
    (legalMode i = .dec ∧ ByteTaken s s') ∨
    (i = .decEnd ∧ s' = closeDecode s) := by
  cases i with
  | encBegin => cases h; exact .inl ⟨rfl, rfl⟩
  | encSym sym =>
    refine .inr (.inl ⟨sym, rfl, ?_⟩)
    simp only [bodyOf, Host.Outcome.next.injEq] at h
    subst h
    unfold appendSymbol
    split
    · exact .inl ⟨.symbolRange, by simp, rfl, by simp⟩
    · split
      · exact .inl ⟨.invalidBitstring, by simp, rfl, by simp⟩
      · split
        · rename_i hfit
          exact .inl ⟨.bufferOverflow, by simp, rfl, fun _ hn => by simp [Config.fits, hn] at hfit⟩
        · rename_i hfit
          exact .inr ⟨by simpa using hfit, rfl⟩
  | encEnd => cases h; exact .inr (.inr (.inl ⟨rfl, rfl⟩))
  | decBegin r =>
    refine .inr (.inr (.inr (.inl ⟨r, rfl, ?_⟩)))
    simp only [bodyOf, Host.Outcome.next.injEq] at h
    subst h
    unfold beginDecode
    split
    · rename_i hi; exact .inl ⟨hi, rfl⟩
    · exact .inr rfl
  | decByte b =>
    refine .inr (.inr (.inr (.inr (.inl ⟨rfl, ?_⟩))))
    exact byteTaken_of_takeByte (by simp [bitsOf_length]) (by have := padDetect_length b; omega) h
  | decEnd => cases h; exact .inr (.inr (.inr (.inr (.inr ⟨rfl, rfl⟩))))
  | hdrPad1 _ | hdrPad2 _ | hdrPad3 _ | hdrPad4 _ | hdrPad5 _ | hdrPad6 _ | hdrPad7 _ | hdrPad8
  | hdrCorrupt =>
    refine .inr (.inr (.inr (.inr (.inl ⟨rfl, ?_⟩))))
    exact byteTaken_of_takeByte (by simp [sentinel, lowBits_length]) (by simp [lowBits_length]) h

/-- Everything an instruction that answers a next state can do: it is discarded in mode `FAULT`, it raises
`Sequence` in a wrong mode, or it has its effect. -/
theorem exec_cases {i : Instr} {s s' : State} (h : exec i s = .next s') :
    (s.mode = .fault ∧ s' = s) ∨
    (s.mode ≠ .fault ∧ s.mode ≠ legalMode i ∧ s' = raise .sequence s) ∨
    (s.mode = legalMode i ∧ bodyOf i s = .next s') := by
  rw [exec_eq_inMode] at h
  rcases inMode_cases (legalMode i) (bodyOf i) s with ⟨hf, he⟩ | ⟨hf, hm, he⟩ | ⟨hf, hm, he⟩ <;>
    rw [he] at h
  · cases h; exact .inl ⟨hf, rfl⟩
  · cases h; exact .inr (.inl ⟨hf, hm, rfl⟩)
  · exact .inr (.inr ⟨hm, h⟩)

/-- Everything a step that answers a next state can do (R8, R23, R131, R140). -/
theorem step_cases {s s' : State} (h : step s = .next s') :
    (s.inp = [] ∧ s' = s) ∨
    (∃ rest, s.inp = .rst :: rest ∧ s' = applyReset (s.setInp rest)) ∨
    (∃ b rest, s.inp = .beat b :: rest ∧
      ((s.mode = .fault ∧ s' = s.setInp rest) ∨
      (s.mode ≠ .fault ∧ (∃ e, decode b = .error e) ∧ s' = raise .illegalCommand (s.setInp rest)) ∨
      (s.mode ≠ .fault ∧ ∃ i, decode b = .ok i ∧
        exec (issue i (s.setInp rest)) (s.setInp rest) = .next s'))) := by
  simp only [step, sequence] at h
  split at h
  · rename_i hi; cases h; exact .inl ⟨hi, rfl⟩
  · rename_i m rest hi
    cases m with
    | rst => cases h; exact .inr (.inl ⟨rest, hi, rfl⟩)
    | beat b =>
      refine .inr (.inr ⟨b, rest, hi, ?_⟩)
      simp only [takeMove, takeBeat, State.setInp_mode] at h
      by_cases hf : s.mode = .fault
      · rw [if_pos hf] at h; cases h; exact .inl ⟨hf, rfl⟩
      · rw [if_neg hf] at h
        cases hd : decode b with
        | error e => simp only [hd] at h; cases h; exact .inr (.inl ⟨hf, ⟨e, rfl⟩, rfl⟩)
        | ok i => simp only [hd] at h; exact .inr (.inr ⟨hf, i, rfl, h⟩)

/-- The row a command is issued as is legal in the same mode. -/
theorem legalMode_issue (i : Instr) (s : State) : legalMode (issue i s) = legalMode i := by
  cases i <;> try rfl
  rename_i b
  simp only [issue]
  split
  · unfold headerForm
    repeat' split
    all_goals rfl
  · rfl

end Sys2Proof.Machine
end

