-- ==== Sys2Proof/Laws/Images.lean ====
section
/-! SUPPORT. The checks of Machine/Images.lean are sound: what they accept satisfies R110 and R112. -/

namespace Sys2Proof.Machine

variable {c : Config}

theorem follow_append {i j : Nat} {bits rest : Bits} (h : follow c i bits = some j) :
    follow c i (bits ++ rest) = follow c j rest := by
  induction bits generalizing i with
  | nil => cases h; rfl
  | cons bit bits ih =>
    simp only [follow] at h
    split at h
    · rename_i hi; simp [follow, hi, ih h]
    · cases h

theorem follow_snoc {i j : Nat} {bits : Bits} (bit : Bool) (h : follow c i bits = some j)
    (hj : c.internalAt j = true) : follow c i (bits ++ [bit]) = some (childAt c j bit) := by
  simp [follow_append h, follow, hj]

theorem mem_childrenOf {nodes : List Nat} {i : Nat} (h : i ∈ childrenOf c nodes) :
    ∃ j ∈ nodes, c.internalAt j = true ∧ ∃ bit, childAt c j bit = i := by
  simp only [childrenOf, List.mem_flatMap] at h
  obtain ⟨j, hj, hi⟩ := h
  refine ⟨j, hj, ?_⟩
  split at hi
  · rename_i hint
    simp only [List.mem_cons, List.not_mem_nil, or_false] at hi
    rcases hi with rfl | rfl
    · exact ⟨hint, false, rfl⟩
    · exact ⟨hint, true, rfl⟩
  · cases hi

theorem mem_closure {r : Nat} : ∀ {fuel : Nat} {seen frontier : List Nat},
    (∀ i ∈ seen, ∃ bits, follow c r bits = some i) →
    (∀ i ∈ frontier, ∃ bits, follow c r bits = some i) →
    ∀ i ∈ closure c fuel seen frontier, ∃ bits, follow c r bits = some i
  | 0, _, _, hs, _, i, hi => hs i hi
  | fuel + 1, seen, frontier, hs, hf, i, hi => by
    simp only [closure] at hi
    split at hi
    · exact hs i hi
    · have fresh : ∀ k ∈ ((childrenOf c frontier).filter (fun i => !seen.contains i)).dedup,
          ∃ bits, follow c r bits = some k := fun k hk => by
        obtain ⟨j, hj, hint, bit, rfl⟩ := mem_childrenOf (List.mem_filter.1 (List.mem_dedup.1 hk)).1
        obtain ⟨bits, hb⟩ := hf j hj
        exact ⟨_, follow_snoc bit hb hint⟩
      refine mem_closure (fun k hk => ?_) fresh i hi
      rcases List.mem_append.1 hk with hk | hk
      · exact hs k hk
      · exact fresh k hk

/-- Everything `reachableFrom` lists is reached. -/
theorem reachable_of_mem {r i : Nat} (h : i ∈ reachableFrom c r) :
    ∃ bits, follow c r bits = some i := by
  have hr : ∀ k ∈ [r], ∃ bits, follow c r bits = some k := fun k hk => by
    rw [List.mem_singleton.1 hk]; exact ⟨[], rfl⟩
  exact mem_closure hr hr i h

theorem mem_parentsOf {V : List Nat} {i : Nat} {p : Nat × Bool} :
    p ∈ parentsOf c V i ↔
      p.1 ∈ V ∧ nodeTag (c.treeNode p.1) = true ∧ childAt c p.1 p.2 = i := by
  obtain ⟨j, bit⟩ := p
  simp only [parentsOf, List.mem_flatMap, List.mem_filter, List.mem_cons, List.not_mem_nil,
    or_false, Prod.mk.injEq, beq_iff_eq]
  constructor
  · rintro ⟨k, ⟨hk, ht⟩, (⟨rfl, rfl⟩ | ⟨rfl, rfl⟩), hc⟩ <;> exact ⟨hk, ht, hc⟩
  · rintro ⟨hj, ht, hc⟩
    exact ⟨j, ⟨hj, ht⟩, by cases bit <;> simp, hc⟩

/-- What `treeCheck` accepts is a tree in the sense of R110. -/
theorem treeWF_of_treeCheck {r : Nat} (h : treeCheck c r = true) : TreeWF c r := by
  refine ⟨reachableFrom c r, ?_⟩
  simp only [treeCheck, treeCheckOn, Bool.and_eq_true, List.all_eq_true, decide_eq_true_eq,
    List.contains_eq_mem, Bool.or_eq_true, Bool.not_eq_true', beq_iff_eq] at h
  obtain ⟨⟨⟨⟨⟨⟨⟨hb, hr⟩, hrt⟩, -⟩, hcl⟩, hpar⟩, hleaf⟩, hsym⟩ := h
  refine ⟨hb, hr, hrt, ?_, ?_, ?_, fun i hi => reachable_of_mem hi, ?_, ?_⟩
  · intro i hi ht bit
    rcases hcl i hi with hn | hc
    · rw [ht] at hn; cases hn
    · cases bit
      · exact hc.1
      · exact hc.2
  · intro i hi hne
    have hlen := hpar i hi
    rw [if_neg hne] at hlen
    obtain ⟨p, hp⟩ := List.length_eq_one_iff.1 hlen
    have hmem : ∀ q, q ∈ parentsOf c (reachableFrom c r) i ↔ q = p := by simp [hp]
    exact ⟨p, mem_parentsOf.1 ((hmem p).2 rfl), fun q hq => (hmem q).1 (mem_parentsOf.2 hq)⟩
  · intro i hi ht bit hc
    have hlen := hpar r hr
    rw [if_pos rfl, List.length_eq_zero_iff] at hlen
    have hmem : (i, bit) ∈ parentsOf c (reachableFrom c r) r := mem_parentsOf.2 ⟨hi, ht, hc⟩
    rw [hlen] at hmem
    cases hmem
  · intro i hi ht
    rcases hleaf i hi with h | h
    · rw [ht] at h; cases h
    · exact h
  · intro i hi j hj hti htj hij
    have inj := List.inj_on_of_nodup_map hsym
    exact inj (List.mem_filter.2 ⟨hi, by simp [hti]⟩) (List.mem_filter.2 ⟨hj, by simp [htj]⟩) hij

/-- `codePaths` lists every leaf below the node, with the branches that lead to it, and nothing else. -/
theorem mem_codePaths : ∀ {fuel i : Nat} {acc : Bits} {table : List (Byte × Bits)},
    codePaths c fuel i acc = some table → ∀ sym path, (sym, path) ∈ table ↔
      ∃ bits j, follow c i bits = some j ∧ leafAt c j = true ∧ symbolAt c j = sym ∧ path = acc ++ bits
  | 0, _, _, _, h, _, _ => by cases h
  | fuel + 1, i, acc, table, h, sym, path => by
    simp only [codePaths] at h
    split at h
    · cases h
    · rename_i hi
      split at h
      · rename_i ht
        have hint : c.internalAt i = true := by simp [Config.internalAt, ht]; omega
        cases hl : codePaths c fuel (childAt c i false) (acc ++ [false]) with
        | none => simp [hl] at h
        | some left =>
          cases hr : codePaths c fuel (childAt c i true) (acc ++ [true]) with
          | none => simp [hl, hr] at h
          | some right =>
            simp [hl, hr] at h
            subst h
            rw [List.mem_append, mem_codePaths hl, mem_codePaths hr]
            constructor
            · rintro (⟨bits, j, hf, hj, hs, rfl⟩ | ⟨bits, j, hf, hj, hs, rfl⟩)
              · exact ⟨false :: bits, j, by simp [follow, hint, hf], hj, hs, by simp⟩
              · exact ⟨true :: bits, j, by simp [follow, hint, hf], hj, hs, by simp⟩
            · rintro ⟨bits, j, hf, hj, hs, rfl⟩
              cases bits with
              | nil => cases hf; simp [leafAt, ht] at hj
              | cons bit bits =>
                simp only [follow, hint, if_true] at hf
                cases bit
                · exact .inl ⟨bits, j, hf, hj, hs, by simp⟩
                · exact .inr ⟨bits, j, hf, hj, hs, by simp⟩
      · rename_i ht
        have hnot : c.internalAt i = false := by simp [Config.internalAt, ht]
        cases h
        simp only [List.mem_singleton, Prod.mk.injEq]
        constructor
        · rintro ⟨rfl, rfl⟩
          exact ⟨[], i, rfl, by simp [leafAt, ht]; omega, rfl, by simp⟩
        · rintro ⟨bits, j, hf, hj, rfl, rfl⟩
          cases bits with
          | nil => cases hf; exact ⟨rfl, by simp⟩
          | cons bit bits => simp [follow, hnot] at hf

/-- What `consistentCheck` accepts satisfies R112. -/
theorem consistent_of_check {r : Nat} (h : consistentCheck c r = true) : CodeTreeConsistent c r := by
  simp only [consistentCheck, Bool.and_eq_true] at h
  obtain ⟨htree, h⟩ := h
  cases hp : codePaths c c.nodes r [] with
  | none => simp [hp] at h
  | some table =>
    simp only [hp, Bool.and_eq_true, decide_eq_true_eq, List.all_eq_true, List.mem_range] at h
    obtain ⟨hnodup, hall⟩ := h
    refine ⟨treeWF_of_treeCheck htree, ?_, ?_⟩
    · intro bits i hf hi hk
      have hmem : (symbolAt c i, bits) ∈ table :=
        (mem_codePaths hp _ _).2 ⟨bits, i, hf, hi, rfl, rfl⟩
      have hag := hall _ hk
      simp only [entryAgrees] at hag
      cases hfind : table.find? (fun row => row.1.toNat == (symbolAt c i).toNat) with
      | none =>
        exact absurd (List.find?_eq_none.1 hfind _ hmem) (by simp)
      | some row =>
        have hrow := List.find?_some hfind
        have hrmem := List.mem_of_find?_eq_some hfind
        have hsym : row.1 = symbolAt c i := BitVec.eq_of_toNat_eq (by simpa using hrow)
        have hrow_eq : row = (symbolAt c i, bits) :=
          List.inj_on_of_nodup_map hnodup hrmem hmem hsym
        subst hrow_eq
        simpa [hfind] using hag
    · intro s hs hno
      have hag := hall s hs
      simp only [entryAgrees] at hag
      cases hfind : table.find? (fun row => row.1.toNat == s) with
      | none => simpa [hfind] using hag
      | some row =>
        obtain ⟨bits, j, hf, hj, hsym, -⟩ :=
          (mem_codePaths hp row.1 row.2).1 (List.mem_of_find?_eq_some hfind)
        exact absurd ⟨bits, j, hf, hj, by rw [hsym]; simpa using List.find?_some hfind⟩ hno

end Sys2Proof.Machine
end

