-- ==== Sys2Proof/Laws/Memory.lean ====
section
/-! SUPPORT. The laws of a ROM image: writing keeps the canonical form, a read after a write gives the
value written, and every other index reads as before. -/

namespace Sys2Proof.Memory

variable {w : Nat}

theorem wfFrom_mono {lo lo' size : Nat} (h : lo' ≤ lo) :
    ∀ {m : Memory w}, wfFrom lo size m = true → wfFrom lo' size m = true
  | [], _ => rfl
  | (a, v) :: rest, hm => by
    simp only [wfFrom, Bool.and_eq_true, decide_eq_true_eq] at hm ⊢
    exact ⟨⟨⟨by omega, hm.1.1.2⟩, hm.1.2⟩, hm.2⟩

/-- Below its lowest index an image reads as zero. -/
theorem read_eq_zero_of_lt {lo size i : Nat} (hi : i < lo) :
    ∀ {m : Memory w}, wfFrom lo size m = true → read m i = 0#w
  | [], _ => rfl
  | (a, v) :: rest, hm => by
    simp only [wfFrom, Bool.and_eq_true, decide_eq_true_eq] at hm
    have : a ≠ i := by omega
    simp only [read, this, if_false]
    exact read_eq_zero_of_lt (lo := a + 1) (by omega) hm.2

/-- From its size on an image reads as zero. -/
theorem read_eq_zero_of_le {lo size i : Nat} (hi : size ≤ i) :
    ∀ {m : Memory w}, wfFrom lo size m = true → read m i = 0#w
  | [], _ => rfl
  | (a, v) :: rest, hm => by
    simp only [wfFrom, Bool.and_eq_true, decide_eq_true_eq] at hm
    have : a ≠ i := by omega
    simp only [read, this, if_false]
    exact read_eq_zero_of_le hi hm.2

theorem wfFrom_write {size i : Nat} {v : BitVec w} (hi : i < size) :
    ∀ {lo : Nat} {m : Memory w}, lo ≤ i → wfFrom lo size m = true →
      wfFrom lo size (write m i v) = true
  | lo, [], hlo, _ => by
    by_cases hv : v = 0#w <;> simp [write, wfFrom, hv, hlo, hi]
  | lo, (a, u) :: rest, hlo, hm => by
    have hm' := hm
    simp only [wfFrom, Bool.and_eq_true, decide_eq_true_eq] at hm'
    obtain ⟨⟨⟨h1, h2⟩, h3⟩, h4⟩ := hm'
    unfold write
    by_cases hia : i < a
    · by_cases hv : v = 0#w
      · simpa [hia, hv] using hm
      · simp [hia, hv, wfFrom, hlo, hi, h2, h3, h4]
    · by_cases hie : i = a
      · by_cases hv : v = 0#w
        · simpa [hia, hie, hv] using wfFrom_mono (lo := a + 1) (by omega) h4
        · subst hie; simp [hv, wfFrom, hlo, hi, h4]
      · simp only [hia, hie, if_false, wfFrom, Bool.and_eq_true, decide_eq_true_eq]
        exact ⟨⟨⟨h1, h2⟩, h3⟩, wfFrom_write hi (by omega) h4⟩

/-- Writing an index of the ROM keeps the canonical form. -/
theorem wf_write {size i : Nat} {v : BitVec w} {m : Memory w} (hi : i < size)
    (hm : wf size m = true) : wf size (write m i v) = true :=
  wfFrom_write hi (Nat.zero_le _) hm

theorem read_write_from {size i j : Nat} {v : BitVec w} :
    ∀ {lo : Nat} {m : Memory w}, wfFrom lo size m = true →
      read (write m i v) j = if j = i then v else read m j
  | lo, [], _ => by
    by_cases hv : v = 0#w <;> by_cases hj : i = j <;> simp [write, read, hv, hj, @eq_comm _ j i]
  | lo, (a, u) :: rest, hm => by
    simp only [wfFrom, Bool.and_eq_true, decide_eq_true_eq] at hm
    obtain ⟨⟨⟨h1, h2⟩, h3⟩, h4⟩ := hm
    have below : ∀ n, n ≤ a → read rest n = 0#w := fun n hn =>
      read_eq_zero_of_lt (lo := a + 1) (by omega) h4
    unfold write
    by_cases hia : i < a
    · by_cases hv : v = 0#w <;> by_cases hj : j = i
      · subst hj; simp [hia, hv, read, below j (by omega), show a ≠ j by omega]
      · simp [hia, hv, hj]
      · simp [hia, hv, hj, read]
      · simp [hia, hv, hj, read, show i ≠ j by omega]
    · by_cases hie : i = a
      · subst hie
        by_cases hv : v = 0#w <;> by_cases hj : j = i
        · subst hj; simp [hv, below j (by omega)]
        · simp [hv, hj, read, show i ≠ j by omega]
        · simp [hv, hj, read]
        · simp [hv, hj, read, show i ≠ j by omega]
      · by_cases hj : a = j
        · subst hj; simp [hia, hie, read, show a ≠ i by omega]
        · simp only [hia, hie, if_false, read, hj]
          exact read_write_from h4

/-- A read after a write: the value written, and every other index unchanged. -/
theorem read_write {size i j : Nat} {v : BitVec w} {m : Memory w} (hm : wf size m = true) :
    read (write m i v) j = if j = i then v else read m j :=
  read_write_from hm

/-- Two canonical images that read alike are the same list. -/
theorem eq_of_read_eq_from {size : Nat} :
    ∀ {lo : Nat} {m m' : Memory w}, wfFrom lo size m = true → wfFrom lo size m' = true →
      (∀ i, read m i = read m' i) → m = m'
  | lo, [], [], _, _, _ => rfl
  | lo, [], (a, v) :: rest, _, hm', h => by
    simp only [wfFrom, Bool.and_eq_true, decide_eq_true_eq] at hm'
    exact absurd (by simpa [read] using (h a).symm) hm'.1.2
  | lo, (a, v) :: rest, [], hm, _, h => by
    simp only [wfFrom, Bool.and_eq_true, decide_eq_true_eq] at hm
    exact absurd (by simpa [read] using h a) hm.1.2
  | lo, (a, v) :: rest, (a', v') :: rest', hm, hm', h => by
    simp only [wfFrom, Bool.and_eq_true, decide_eq_true_eq] at hm hm'
    have hr : ∀ n, n ≤ a → read rest n = 0#w := fun n hn =>
      read_eq_zero_of_lt (lo := a + 1) (by omega) hm.2
    have hr' : ∀ n, n ≤ a' → read rest' n = 0#w := fun n hn =>
      read_eq_zero_of_lt (lo := a' + 1) (by omega) hm'.2
    have ha : a = a' := by
      rcases Nat.lt_trichotomy a a' with hlt | heq | hgt
      · have := h a
        simp [read, show a' ≠ a by omega, hr' a (by omega)] at this
        exact absurd this hm.1.2
      · exact heq
      · have := h a'
        simp [read, show a ≠ a' by omega, hr a' (by omega)] at this
        exact absurd this.symm hm'.1.2
    subst ha
    have hv : v = v' := by simpa [read] using h a
    subst hv
    have : rest = rest' := eq_of_read_eq_from hm.2 hm'.2 fun i => by
      by_cases hi : a = i
      · subst hi; rw [hr a (by omega), hr' a (by omega)]
      · simpa [read, hi] using h i
    rw [this]

/-- Equal memories are equal data. -/
theorem eq_of_read_eq {size : Nat} {m m' : Memory w} (hm : wf size m = true)
    (hm' : wf size m' = true) (h : ∀ i, read m i = read m' i) : m = m' :=
  eq_of_read_eq_from hm hm' h

end Sys2Proof.Memory
end

