-- ==== Sys2Proof/Laws/PerInstr.lean ====
section
/-! SUPPORT. Statements made once per instruction. `RowPattern`: the encoding of an instruction is a word
of its own row of the opcode table (match and mask of R60 and R56), within the row's width. -/

/-- The encoded word matches the row of the instruction and fits the row's width. -/
def Sys2Proof.Laws.RowPattern.Statement (i : Sys2Proof.Instr) : Prop :=
  i.row.matches (Sys2Proof.encode i).value = true ∧ (Sys2Proof.encode i).value < 2 ^ i.row.width

namespace Sys2Proof.Laws.RowPattern

theorem encBegin : Statement .encBegin := by unfold Statement; decide
theorem encSym : ∀ s : Byte, Statement (.encSym s) := by unfold Statement; decide
theorem encEnd : Statement .encEnd := by unfold Statement; decide
theorem decBegin : ∀ r : Byte, Statement (.decBegin r) := by unfold Statement; decide
theorem decByte : ∀ b : Byte, Statement (.decByte b) := by unfold Statement; decide
theorem decEnd : Statement .decEnd := by unfold Statement; decide
theorem hdrPad1 : ∀ p : BitVec 7, Statement (.hdrPad1 p) := by unfold Statement; decide
theorem hdrPad2 : ∀ p : BitVec 6, Statement (.hdrPad2 p) := by unfold Statement; decide
theorem hdrPad3 : ∀ p : BitVec 5, Statement (.hdrPad3 p) := by unfold Statement; decide
theorem hdrPad4 : ∀ p : BitVec 4, Statement (.hdrPad4 p) := by unfold Statement; decide
theorem hdrPad5 : ∀ p : BitVec 3, Statement (.hdrPad5 p) := by unfold Statement; decide
theorem hdrPad6 : ∀ p : BitVec 2, Statement (.hdrPad6 p) := by unfold Statement; decide
theorem hdrPad7 : ∀ p : BitVec 1, Statement (.hdrPad7 p) := by unfold Statement; decide
theorem hdrPad8 : Statement .hdrPad8 := by unfold Statement; decide
theorem hdrCorrupt : Statement .hdrCorrupt := by unfold Statement; decide

end Sys2Proof.Laws.RowPattern
end

