-- ==== Sys2Proof/Laws/Sessions.lean ====
section
/-! SUPPORT. Sessions (R152): the events of a step in each of its cases, when a beat begins a session, and
how the result of a session reads off its events. -/

namespace Sys2Proof.Machine

variable {s s' : State} {b : Beat} {rest : List HostMove}

/-- With nothing waiting nothing happens. -/
theorem stepEvents_of_nil (h : s.inp = []) : stepEvents s = [] := by simp [stepEvents, h]

theorem stepEvents_of_rst (h : s.inp = .rst :: rest) : stepEvents s = [.reset] := by simp [stepEvents, h]

/-- A beat taken: the beginning of a session if it is one, then the beats emitted. -/
theorem stepEvents_of_beat {beats : List OutBeat} (h : s.inp = .beat b :: rest) (hs : step s = .next s')
    (ho : s'.out = s.out ++ beats) :
    stepEvents s = (if opensSession b s then [.began] else []) ++ beats.map .emitted := by
  simp [stepEvents, h, hs, emittedSince, ho]

/-- The two commands legal in mode `IDLE` begin a session there, and nothing else does (R125, R152). -/
theorem opensSession_iff :
    opensSession b s = true ↔
      s.mode = .idle ∧ (decode b = .ok .encBegin ∨ ∃ r, decode b = .ok (.decBegin r)) := by
  unfold opensSession
  cases hd : decode b with
  | error e => simp
  | ok i => cases i <;> simp [legalMode]

/-- A run of `n + 1` steps whose first answers next: the events of that step, then those of the rest. -/
theorem runEvents_succ (n : Nat) (hs : step s = .next s') :
    runEvents (n + 1) s = stepEvents s ++ runEvents n s' := by simp [runEvents, hs]

/-- A result with these beats in front of its data. -/
def SessionResult.after (beats : List OutBeat) : SessionResult → SessionResult
  | .succeeded data d => .succeeded (beats ++ data) d
  | .failed data d => .failed (beats ++ data) d
  | .unfinished => .unfinished

/-- Data beats stand in front of the data of the result. -/
theorem sessionResult_data (beats : List OutBeat) (events : List RunEvent)
    (h : ∀ o ∈ beats, o.kind = .byte ∨ o.kind = .sym) :
    sessionResult (beats.map .emitted ++ events) = (sessionResult events).after beats := by
  induction beats with
  | nil => cases hr : sessionResult events <;> simp [SessionResult.after, hr]
  | cons o beats ih =>
    have ih := ih fun o' ho' => h o' (List.mem_cons_of_mem _ ho')
    simp only [List.map_cons, List.cons_append, sessionResult, ih]
    rcases h o List.mem_cons_self with hk | hk <;> rw [hk] <;>
      cases sessionResult events <;> simp [SessionResult.after]

/-- A session to which reset comes before `DONE` or `ERR` is unfinished, whatever follows (R152). -/
theorem sessionResult_reset {events : List RunEvent} (rest : List RunEvent)
    (h : sessionResult events = .unfinished) :
    sessionResult (events ++ .reset :: rest) = .unfinished := by
  induction events with
  | nil => rfl
  | cons e events ih =>
    cases e with
    | began => exact ih h
    | reset => rfl
    | emitted o =>
      simp only [List.cons_append, sessionResult] at h ⊢
      cases hk : o.kind <;> cases hr : sessionResult events <;> simp_all

/-- Events that emit add to the beats of the session. -/
theorem sessionBeats_emitted (sofar beats : List OutBeat) (events : List RunEvent) :
    sessionBeats sofar (beats.map .emitted ++ events) = sessionBeats (sofar ++ beats) events := by
  induction beats generalizing sofar with
  | nil => simp
  | cons o beats ih => simp [sessionBeats, ih]

end Sys2Proof.Machine
end

