-- ==== Sys2Proof/Tests/Slice0.lean ====
section
/-! SUPPORT. Tests. Every expected value stands in spec/95_test_vectors.md or is worked out by hand from a
rule; the name of the vector (E8, V22, ...) or the rule is in the test's docstring. The second half holds
a witness for every statement that has hypotheses: states and operands that meet them. -/

namespace Sys2Proof.Tests

open Sys2Proof.Machine

/-! ### Configurations and states -/

/-- Configuration A, built from "abracadabra" (section 2.1). -/
def configA : Config :=
  { Config.blank with
    codeRom := [(0x61, 1#7 ++ 0#127), (0x62, 3#7 ++ 6#127), (0x63, 3#7 ++ 4#127), (0x64, 3#7 ++ 5#127),
      (0x72, 3#7 ++ 7#127)]
    treeRom := [(0, 0x00063), (1, 0x00064), (2, 0x00062), (3, 0x00072), (4, 0x00061), (5, 0x10001),
      (6, 0x10203), (7, 0x10506), (8, 0x10407)] }

/-- Configuration B, built from "aaaa" (section 2.2). -/
def configB : Config :=
  { Config.blank with
    codeRom := [(0x61, 1#7 ++ 1#127), (0x62, 1#7 ++ 0#127)]
    treeRom := [(0, 0x00062), (1, 0x00061), (2, 0x10001)] }

/-- Configuration C: the wrap of the synthetic symbol (section 2.3). -/
def configC : Config :=
  { Config.blank with
    codeRom := [(0, 1#7 ++ 0#127), (0x7F, 1#7 ++ 1#127)]
    treeRom := [(1, 0x0007F), (2, 0x10001)] }

/-- Configuration M, a malformed tree (section 2.4). -/
def configM : Config :=
  { Config.blank with treeRom := [(0, 0x101FF), (1, 0x10002), (2, 0x00041)] }

/-- `K = 5`: `MAXLEN = 4`, `LEN_W = 3`; the entry of symbol 0 names seven code bits (R62). -/
def configFive : Config := { Config.blank with k := 5, codeRom := [(0, 0x70)] }

/-- An idle block of configuration A. -/
def idleA : State := State.powerOn configA

/-- An open encode session with this buffer. -/
def encA (bits : Bits) : State := { idleA with mode := .enc, bitbuf := bits }

/-- An open decode session on root 8. -/
def decA (node : Byte) (first : Bool) : State :=
  { idleA with mode := .dec, root := 8, node := node, first := first }

/-- An open decode session on root 0 of configuration M that has taken no byte. -/
def decM : State := { State.powerOn configM with mode := .dec, first := true }

/-- A block that has failed with `IllegalCommand`. -/
def deadA : State := { idleA with mode := .fault, faultCode := 5, out := [⟨.err, 5⟩] }

/-- The outcome is this next state. -/
def answers (o : Host.Outcome State Fault Refusal) (t : State) : Bool :=
  match o with
  | .next s => decide (s = t)
  | .fault _ => false
  | .refused _ => false

/-- What `answers` checks. -/
theorem eq_of_answers {o : Host.Outcome State Fault Refusal} {t : State} (h : answers o t = true) :
    o = .next t := by
  unfold answers at h
  split at h
  · rw [of_decide_eq_true h]
  · cases h
  · cases h

/-- The outcome is a next state in which `p` holds. -/
def answersWith (o : Host.Outcome State Fault Refusal) (p : State → Bool) : Bool :=
  match o with
  | .next s => p s
  | .fault _ => false
  | .refused _ => false

/-- What `answersWith` checks. -/
theorem exists_of_answersWith {o : Host.Outcome State Fault Refusal} {p : State → Bool}
    (h : answersWith o p = true) : ∃ t, o = .next t ∧ p t = true := by
  unfold answersWith at h
  split at h
  · exact ⟨_, rfl, h⟩
  · cases h
  · cases h

/-! ### Well-formedness: an ill-formed term for each check -/

/-- R57: the symbol `0x80` is not below `K = 128`. -/
theorem test_wellFormed_symbol : (Instr.encSym 0x80).wellFormed Config.blank = false := by decide
/-- R57: the root 255 is not below `NODES = 255`. -/
theorem test_wellFormed_root : (Instr.decBegin 255).wellFormed Config.blank = false := by decide
/-- R57: the greatest operands in range. -/
theorem test_wellFormed_greatest :
    (Instr.encSym 0x7F).wellFormed Config.blank = true ∧
    (Instr.decBegin 254).wellFormed Config.blank = true := by decide
/-- R4 to R7: configurations out of range are refused where an instance is built (log 9). -/
theorem test_acceptConfig :
    acceptConfig { Config.blank with k := 1 } = none ∧ acceptConfig { Config.blank with k := 129 } = none ∧
    acceptConfig { Config.blank with nodes := 0 } = none ∧
    acceptConfig { Config.blank with nodes := 257 } = none ∧
    acceptConfig { Config.blank with treeRom := [(255, 1)] } = none ∧
    (acceptConfig configA).isSome = true := by decide

/-! ### Decoding: words written out from R60 and R56 -/

theorem test_decode_encBegin : decode 0b001_0000_0000#11 = .ok .encBegin := by decide
theorem test_decode_encSym : decode 0b010_0110_0001#11 = .ok (.encSym 0x61) := by decide
theorem test_decode_encEnd : decode 0b011_0000_0000#11 = .ok .encEnd := by decide
theorem test_decode_decBegin : decode 0b100_0000_1000#11 = .ok (.decBegin 8) := by decide
theorem test_decode_decByte : decode 0b101_1011_0111#11 = .ok (.decByte 0xB7) := by decide
theorem test_decode_decEnd : decode 0b110_0000_0000#11 = .ok .decEnd := by decide
theorem test_decode_hdrPad1 : headerForm 0b1011_0111#8 = .hdrPad1 0b0110111 := by decide
theorem test_decode_hdrPad2 : headerForm 0b0101_0101#8 = .hdrPad2 0b010101 := by decide
theorem test_decode_hdrPad3 : headerForm 0b0011_1110#8 = .hdrPad3 0b11110 := by decide
theorem test_decode_hdrPad4 : headerForm 0b0001_0111#8 = .hdrPad4 0b0111 := by decide
theorem test_decode_hdrPad5 : headerForm 0b0000_1011#8 = .hdrPad5 0b011 := by decide
theorem test_decode_hdrPad6 : headerForm 0b0000_0110#8 = .hdrPad6 0b10 := by decide
theorem test_decode_hdrPad7 : headerForm 0b0000_0011#8 = .hdrPad7 1 := by decide
theorem test_decode_hdrPad8 : headerForm 0b0000_0001#8 = .hdrPad8 := by decide
theorem test_decode_hdrCorrupt : headerForm 0b0000_0000#8 = .hdrCorrupt := by decide
/-- Q1 to Q6: illegal beats, each by its reason (R61). -/
theorem test_decode_illegal :
    decode 0x000#11 = .error .opZero ∧ decode 0x0FF#11 = .error .opZero ∧
    decode 0x700#11 = .error .opSeven ∧ decode 0x7FF#11 = .error .opSeven ∧
    decode 0x101#11 = .error .argNonzero ∧ decode 0x301#11 = .error .argNonzero ∧
    decode 0x680#11 = .error .argNonzero := by decide
/-- The opcode table's numbering: 16 bits for a beat, 8 for a header byte. -/
theorem test_decodeTableWord :
    decodeTableWord 16 0x261 = some (.encSym 0x61) ∧ decodeTableWord 8 0x55 = some (.hdrPad2 0b010101) ∧
    decodeTableWord 16 0x900 = none := by decide

/-! ### One step of each command -/

/-- R70's example: from the reset state `MODE = ENC`, no output. -/
theorem test_encBegin : answers (step (idleA.offer [.beat 0x100])) (encA []) = true := by decide
/-- W1: `ENC_BEGIN` clears the flags of the session before and leaves `ROOT` and `NODE`. -/
theorem test_encBegin_clears :
    answers (exec .encBegin { idleA with root := 8, node := 6, corruptPad := true, midcode := true })
      { encA [] with root := 8, node := 6 } = true := by decide
/-- R72's example: `"0"` and the code of `b`. -/
theorem test_encSym :
    answers (step ((encA [false]).offer [.beat 0x262])) (encA [false, true, true, false]) = true := by decide
/-- E9: an absent entry, `InvalidBitstring`; the buffer is dropped. -/
theorem test_encSym_absent :
    answers (exec (.encSym 0x7A) (encA [false, true, true, false]))
      { idleA with mode := .fault, faultCode := 2, out := [⟨.err, 2⟩] } = true := by decide
/-- E6: the 23 bits of "abracadabra". -/
theorem test_encEnd :
    answers (exec .encEnd (encA [false, true, true, false, true, true, true, false, true, false, false, false,
        true, false, true, false, true, true, false, true, true, true, false]))
      { idleA with out := [⟨.byte, 0xB7⟩, ⟨.byte, 0x45⟩, ⟨.byte, 0x6E⟩, ⟨.done, 0⟩] } = true := by decide
/-- E5: eight bits get a whole header byte. -/
theorem test_encEnd_eight :
    answers (exec .encEnd (encA (List.replicate 8 false)))
      { idleA with out := [⟨.byte, 0x01⟩, ⟨.byte, 0x00⟩, ⟨.done, 0⟩] } = true := by decide
/-- V15. -/
theorem test_decBegin : answers (step (idleA.offer [.beat 0x408])) (decA 8 true) = true := by decide
/-- V18, V19, V20: a leaf, an all-zero entry, an index outside the ROM: `TreeFault`, registers kept. -/
theorem test_decBegin_fault :
    answers (exec (.decBegin 4) idleA)
      { idleA with mode := .fault, faultCode := 9, out := [⟨.err, 9⟩] } = true ∧
    answers (exec (.decBegin 9) idleA)
      { idleA with mode := .fault, faultCode := 9, out := [⟨.err, 9⟩] } = true ∧
    answers (exec (.decBegin 255) idleA)
      { idleA with mode := .fault, faultCode := 9, out := [⟨.err, 9⟩] } = true := by decide
/-- V16: the example of R86. -/
theorem test_decByte :
    answers (step ((decA 8 true).offer [.beat 0x5B7]))
      { decA 8 false with out := [⟨.sym, 0x61⟩, ⟨.sym, 0x62⟩, ⟨.sym, 0x72⟩] } = true := by decide
/-- P6: a fault that is precise at the bit; `FIRST` is already 0. -/
theorem test_decByte_precise :
    answers (step (decM.offer [.beat 0x5B0]))
      { State.powerOn configM with mode := .fault, faultCode := 9,
                                   out := [⟨.sym, 0x41⟩, ⟨.err, 9⟩] } = true := by decide
/-- V9: the stream ends at node 6, inside a code. -/
theorem test_decEnd :
    answers (exec .decEnd (decA 6 false))
      { idleA with root := 8, node := 6, midcode := true, out := [⟨.done, 2⟩] } = true := by decide
/-- V17: no byte was received. -/
theorem test_decEnd_empty :
    answers (exec .decEnd (decA 8 true))
      { decA 8 true with mode := .fault, faultCode := 10, out := [⟨.err, 10⟩] } = true := by decide

/-! ### One step of each header form -/

/-- V5: `1 110 0 0 0 0`. -/
theorem test_hdrPad1 :
    answers (step ((decA 8 true).offer [.beat 0x5E0]))
      { decA 8 false with
        out := [⟨.sym, 0x62⟩, ⟨.sym, 0x61⟩, ⟨.sym, 0x61⟩, ⟨.sym, 0x61⟩, ⟨.sym, 0x61⟩] } = true := by decide
/-- V13: `45` = `01 000101`: `a a a d`. -/
theorem test_hdrPad2 :
    answers (exec (.hdrPad2 0b000101) (decA 8 true))
      { decA 8 false with out := [⟨.sym, 0x61⟩, ⟨.sym, 0x61⟩, ⟨.sym, 0x61⟩, ⟨.sym, 0x64⟩] } = true := by decide
/-- H4 and configuration A: payload `11111`: `r`, then nodes 7 and 6. -/
theorem test_hdrPad3 :
    answers (exec (.hdrPad3 0b11111) (decA 8 true)) { decA 6 false with out := [⟨.sym, 0x72⟩] } = true := by
  decide
/-- H5 and configuration A: payload `1111`: `r`, then node 7. -/
theorem test_hdrPad4 :
    answers (exec (.hdrPad4 0b1111) (decA 8 true)) { decA 7 false with out := [⟨.sym, 0x72⟩] } = true := by
  decide
/-- E3 decoded: `0E` = `00001 110`: `b`. -/
theorem test_hdrPad5 :
    answers (exec (.hdrPad5 0b110) (decA 8 true)) { decA 8 false with out := [⟨.sym, 0x62⟩] } = true := by decide
/-- H7 and configuration A: payload `11`: node 6. -/
theorem test_hdrPad6 : answers (exec (.hdrPad6 0b11) (decA 8 true)) (decA 6 false) = true := by decide
/-- E2 decoded: `02` = `0000001 0`: `a`. -/
theorem test_hdrPad7 :
    answers (exec (.hdrPad7 0) (decA 8 true)) { decA 8 false with out := [⟨.sym, 0x61⟩] } = true := by decide
/-- V2: a header byte with no payload. -/
theorem test_hdrPad8 : answers (exec .hdrPad8 (decA 8 true)) (decA 8 false) = true := by decide
/-- V8: the corrupt header, stripped whole. -/
theorem test_hdrCorrupt :
    answers (exec .hdrCorrupt (decA 8 true)) { decA 8 false with corruptPad := true } = true := by decide
/-- W3: a byte `00` that is not the first is eight payload zeros and sets no flag. -/
theorem test_hdrCorrupt_later :
    answers (step ((decA 8 false).offer [.beat 0x500]))
      { decA 8 false with out := List.replicate 8 ⟨.sym, 0x61⟩ } = true := by decide

/-! ### Sequencing -/

/-- Q7, Q9: the order of the checks. -/
theorem test_order_of_checks :
    answersWith (step (idleA.offer [.beat 0x301])) (fun s => decide (s.faultCode = 5)) = true ∧
    answersWith (step (idleA.offer [.beat 0x280])) (fun s => decide (s.faultCode = 6)) = true := by decide
/-- Q11: sessions do not nest; the buffer is dropped. -/
theorem test_no_nesting :
    answers (step ((encA [false]).offer [.beat 0x100]))
      { idleA with mode := .fault, faultCode := 6, out := [⟨.err, 6⟩] } = true := by decide
/-- Q14: after a fault every beat is discarded, with no second `ERR`. -/
theorem test_dead :
    answers (step (deadA.offer [.beat 0x7FF])) deadA = true ∧
    answers (step (deadA.offer [.beat 0x100])) deadA = true := by decide
/-- Q15: reset leaves `FAULT`; `OUT` keeps the `ERR`. -/
theorem test_reset : answers (step (deadA.offer [.rst])) { idleA with out := [⟨.err, 5⟩] } = true := by decide

/-- Log 13: a placed beat runs at the state as it is, here `ENC_BEGIN` at reset; a placed header byte runs in
a decode session that it opens: `80` walks seven zeros, each to leaf 0 of configuration C (section 2.3). -/
theorem test_withFetchWord :
    answers (step (State.reset.withFetchWord 16 0x100)) { State.reset with mode := .enc } = true ∧
    answersWith (step (State.reset.withFetchWord 8 0x80))
      (fun s => decide (s.out = List.replicate 7 ⟨.sym, 0⟩ ∧ s.node = 2 ∧ s.first = false)) = true := by decide

/-! ### Pure functions (section 3) -/

theorem test_padLen :
    [0, 1, 2, 3, 4, 5, 6, 7, 8, 9, 15, 16, 17, 23, 24].map padLen =
      [8, 7, 6, 5, 4, 3, 2, 1, 8, 7, 1, 8, 7, 1, 8] := by decide
/-- K1, K2, K3, K4, K6, K8. -/
theorem test_pack :
    pack [] = [0x01] ∧ pack [false] = [0x02] ∧ pack [true] = [0x03] ∧
    pack (List.replicate 7 false) = [0x80] ∧ pack (List.replicate 8 false) = [0x01, 0x00] ∧
    pack [true, false, true, false, true, false, true, false, true] = [0x03, 0x55] := by decide
/-- K11 to K14. -/
theorem test_unpack :
    unpack [0x00] = some ([], true) ∧
    unpack [0x00, 0x6E] = some ([false, true, true, false, true, true, true, false], true) ∧
    unpack [0x00, 0x00, 0x80] =
      some (List.replicate 8 false ++ true :: List.replicate 7 false, true) ∧
    unpack [0x01, 0x00] = some (List.replicate 8 false, false) := by decide
/-- H1, H8, H10, H11. -/
theorem test_padDetect :
    padDetect 0xB7 = ([false, true, true, false, true, true, true], false) ∧
    padDetect 0x02 = ([false], false) ∧ padDetect 0x01 = ([], false) ∧ padDetect 0x00 = ([], true) := by
  decide
/-- F1, F2, F4, F6. -/
theorem test_codeBits_child :
    codeBits (3#7 ++ 6#127) 3 = [true, true, false] ∧ codeBits (3#7 ++ 1#127) 3 = [false, false, true] ∧
    codeBits (2#7 ++ 0b1110#127) 2 = [true, false] ∧
    child 0x10407 false = 4 ∧ child 0x10407 true = 7 := by decide
/-- The beat values of program P1. -/
theorem test_output_words :
    (OutBeat.mk .byte 0xB7).word = 0x0B7 ∧ (OutBeat.mk .done 0).word = 0x200 ∧
    (OutBeat.mk .sym 0x61).word = 0x161 ∧ (OutBeat.mk .err 9).word = 0x309 := by decide

/-! ### Host-side procedures (section 2) -/

/-- Section 2.1. -/
theorem test_build_A :
    buildConfig exactArith Config.blank
      [0x61, 0x62, 0x72, 0x61, 0x63, 0x61, 0x64, 0x61, 0x62, 0x72, 0x61] = some (configA, 8) := by
  decide +kernel
/-- Section 2.2. -/
theorem test_build_B :
    buildConfig exactArith Config.blank [0x61, 0x61, 0x61, 0x61] = some (configB, 2) := by decide +kernel
/-- Section 2.3. -/
theorem test_build_C :
    buildConfig exactArith Config.blank [0x7F, 0x7F] = some (configC, 2) := by decide +kernel
/-- R121: an empty source. -/
theorem test_build_empty : buildFrequencyTable exactArith 128 [] = none := by decide
/-- Section 2.1: the predicates hold for configuration A; section 2.4: `TreeWF` fails for configuration M. -/
theorem test_checks :
    consistentCheck configA 8 = true ∧ codeWFCheck configA = true ∧ treeCheck configM 0 = false ∧
    treeCheck configM 1 = false := by decide +kernel

/-! ### Text (the lines of R64) -/

theorem test_parseLine :
    parseLine "ENC_BEGIN           ; beat 0x100".toList = some (some .encBegin) ∧
    parseLine "ENC_SYM  'a'        ; beat 0x261".toList = some (some (.encSym 0x61)) ∧
    parseLine "ENC_SYM  0b0110_0010".toList = some (some (.encSym 0x62)) ∧
    parseLine "DEC_BEGIN 8         ; beat 0x408".toList = some (some (.decBegin 8)) ∧
    parseLine "DEC_BYTE 0xB7".toList = some (some (.decByte 0xB7)) ∧
    parseLine "; nothing".toList = some none ∧ parseLine "DEC_BYTE 256".toList = none := by decide
theorem test_beat_text : (OutBeat.mk .byte 0xB7).text = "BYTE(0xB7)".toList := by decide

/-! ### Witnesses: reset, invariants, whole-machine rules -/

/-- Boundary configurations of R4 and R5 are in range. -/
theorem witness_PowerOnMeetsInvariant :
    Config.wf { Config.blank with k := 2, nodes := 1 } = true ∧
    Config.wf { Config.blank with nodes := 256, bitbufCap := some 0 } = true ∧ configA.wf = true := by decide

theorem inv_encA : ((encA [false]).offer [.beat 0x262]).Inv where
  cfg := by decide
  fault := by decide
  code := by decide
  buffer := by decide
  capacity := by decide
  root := by decide
  node := by decide
  encFlags := by decide
  first := by decide
  decFlags := by decide

theorem inv_decA : ((decA 7 false).offer [.beat 0x56E]).Inv where
  cfg := by decide
  fault := by decide
  code := by decide
  buffer := by decide
  capacity := by decide
  root := by decide
  node := by decide
  encFlags := by decide
  first := by decide
  decFlags := by decide

theorem inv_deadA : (deadA.offer [.beat 0x100]).Inv where
  cfg := by decide
  fault := by decide
  code := by decide
  buffer := by decide
  capacity := by decide
  root := by decide
  node := by decide
  encFlags := by decide
  first := by decide
  decFlags := by decide

theorem witness_InvariantKept :
    ((encA [false]).offer [.beat 0x262]).Inv ∧
    (∃ s', step ((encA [false]).offer [.beat 0x262]) = .next s') ∧
    (idleA.offer [.beat 0x408]).NothingSaidYet [⟨.done, 0⟩] ∧
    sessionBeats [⟨.done, 0⟩] (stepEvents (idleA.offer [.beat 0x408])) = [] :=
  ⟨inv_encA, ⟨_, eq_of_answers test_encSym⟩, fun h => absurd h (by decide), by decide⟩

theorem witness_EveryMoveHasAStep :
    ((encA [false]).offer [.beat 0x262]).Inv ∧ ((decA 7 false).offer [.beat 0x56E]).Inv ∧
    (deadA.offer [.beat 0x100]).Inv := ⟨inv_encA, inv_decA, inv_deadA⟩

theorem witness_ConfigurationConstant : ∃ s', step (idleA.offer [.beat 0x100]) = .next s' :=
  ⟨_, eq_of_answers test_encBegin⟩

theorem witness_OutOnlyGrows :
    ∃ s', stepN 3 (idleA.offer [.beat 0x100, .beat 0x261, .beat 0x300]) = .next s' :=
  ⟨{ idleA with out := [⟨.byte, 0x02⟩, ⟨.done, 0⟩] }, eq_of_answers (by decide)⟩

/-- Each change of mode that R136 names. -/
theorem witness_ModeTransitions :
    answersWith (step (deadA.offer [.rst])) (fun s => decide (s.mode = .idle)) = true ∧
    answersWith (step (idleA.offer [.beat 0x100])) (fun s => decide (s.mode = .enc)) = true ∧
    answersWith (step (idleA.offer [.beat 0x408])) (fun s => decide (s.mode = .dec)) = true ∧
    answersWith (step ((encA []).offer [.beat 0x300])) (fun s => decide (s.mode = .idle)) = true ∧
    answersWith (step ((decA 8 false).offer [.beat 0x600])) (fun s => decide (s.mode = .idle)) = true ∧
    answersWith (step ((decA 8 true).offer [.beat 0x600])) (fun s => decide (s.mode = .fault)) = true := by
  decide

/-- Each kind of emission: none, `SYM` beats, `BYTE` beats and `DONE`, `DONE`, `SYM` beats and `ERR`. -/
theorem witness_EmissionShape :
    answersWith (step (idleA.offer [.beat 0x100])) (fun s => decide (s.out = [])) = true ∧
    answersWith (step ((decA 8 false).offer [.beat 0x500]))
      (fun s => decide (s.out = List.replicate 8 ⟨.sym, 0x61⟩)) = true ∧
    answersWith (step ((encA []).offer [.beat 0x300]))
      (fun s => decide (s.out = [⟨.byte, 1⟩, ⟨.done, 0⟩])) = true ∧
    answersWith (step ((decA 8 false).offer [.beat 0x600])) (fun s => decide (s.out = [⟨.done, 0⟩])) = true ∧
    answersWith (step (decM.offer [.beat 0x5B0]))
      (fun s => decide (s.out = [⟨.sym, 0x41⟩, ⟨.err, 9⟩])) = true := by decide

theorem witness_OutputFormat :
    (∀ o ∈ (deadA.offer [.rst]).out, o.inFormat = true) ∧ ∃ s', step (deadA.offer [.rst]) = .next s' :=
  ⟨by decide, _, eq_of_answers test_reset⟩

/-- E2, E9 and V4: sessions that begin, succeed and fail; one that is open when the beats run out, and one that
reset comes to. -/
theorem witness_SessionData :
    (decide (RunEvent.began ∈ stepEvents (idleA.offer [.beat 0x100])) &&
      decide (RunEvent.began ∈ stepEvents (idleA.offer [.beat 0x4FF]))) = true ∧
    sessionResult (runEvents 2 ((encA []).offer [.beat 0x261, .beat 0x300])) =
      .succeeded [⟨.byte, 0x02⟩] 0 ∧
    sessionResult (runEvents 1 ((encA []).offer [.beat 0x27A])) = .failed [] 2 ∧
    sessionResult (runEvents 2 ((decA 8 true).offer [.beat 0x580, .beat 0x600])) =
      .succeeded (List.replicate 7 ⟨.sym, 0x61⟩) 0 ∧
    sessionResult (runEvents 1 (decM.offer [.beat 0x5B0])) = .failed [⟨.sym, 0x41⟩] 9 ∧
    answersWith (step ((encA []).offer [.beat 0x300])) (fun s => decide (s.mode = .idle)) = true ∧
    answersWith (stepN 1 ((encA []).offer [.beat 0x261, .rst])) (fun s =>
      decide (s.mode = .enc ∧ s.inp.head? = some .rst)) = true ∧
    (.began ∉ runEvents 1 ((encA []).offer [.beat 0x261, .rst]) ∧
      .reset ∉ runEvents 1 ((encA []).offer [.beat 0x261, .rst])) := by decide

/-- R152: the session that reset comes to is unfinished; the one after it succeeds, with the stream of the
empty text (R78). -/
theorem test_sessions :
    sessionsOf (runEvents 4 (idleA.offer [.beat 0x100, .rst, .beat 0x100, .beat 0x300])) =
      [.unfinished, .succeeded [⟨.byte, 0x01⟩] 0] := by decide

theorem witness_UnboundedNeverOverflows :
    (encA [false]).cfg.bitbufCap = none ∧ (encA [false]).faultCode ≠ Cause.code .bufferOverflow ∧
    ∃ s', step ((encA [false]).offer [.beat 0x262]) = .next s' :=
  ⟨by decide, by decide, _, eq_of_answers test_encSym⟩

theorem witness_WalkRegistersIrrelevant :
    (idleA.offer [.beat 0x408]).mode ≠ .dec ∧ ∃ s', stepN 1 (idleA.offer [.beat 0x408]) = .next s' :=
  ⟨by decide, decA 8 true, eq_of_answers (by decide)⟩

theorem witness_ResetAtAnyTime :
    (deadA.offer [.rst]).inp = [.rst] ∧ deadA.mode = .fault ∧
    ∃ s', step (deadA.offer [.rst]) = .next s' ∧ s'.mode ≠ .fault :=
  ⟨by decide, by decide, _, eq_of_answers test_reset, by decide⟩

theorem witness_HostMoveConventions :
    idleA.inp = [] ∧ (deadA.offer [.rst, .beat 0x100]).inp = .rst :: [.beat 0x100] ∧
    ∃ s', step (deadA.offer [.rst, .beat 0x100]) = .next s' :=
  ⟨by decide, by decide, { idleA with out := [⟨.err, 5⟩], inp := [.beat 0x100] }, eq_of_answers (by decide)⟩

/-! ### Witnesses: decoding and the step -/

theorem witness_EncodeDecode :
    decodeWord (.cmd 0x7FF) = .error .opSeven ∧ decodeWord (.cmd 0x5FF) = .ok (.decByte 0xFF) ∧
    decodeWord (.hdr 0xFF) = .ok (.hdrPad1 0b1111111) := by decide

theorem witness_IllegalBeats :
    ((idleA.offer [.beat 0x000]).inp = [.beat 0x000] ∧ decode 0x000 = .error .opZero ∧ idleA.mode ≠ .fault) ∧
    (decode 0x7FF = .error .opSeven ∧ (encA []).mode ≠ .fault) ∧
    (decode 0x6FF = .error .argNonzero ∧ (decA 8 true).mode ≠ .fault) ∧
    ((deadA.offer [.beat 0x101]).inp = [.beat 0x101] ∧ decode 0x101 = .error .argNonzero ∧
      deadA.mode = .fault) := by decide

theorem witness_StepRunsDecoded :
    ((decA 8 true).offer [.beat 0x5B7]).inp = [.beat 0x5B7] ∧ (decA 8 true).mode ≠ .fault ∧
    decode 0x5B7 = .ok (.decByte 0xB7) := by decide

theorem witness_PlacedWordRuns :
    decodeTableWord 16 0x400 = some (.decBegin 0) ∧ decodeTableWord 16 0x5FF = some (.decByte 0xFF) ∧
    State.reset.mode ≠ .fault ∧ decodeTableWord 8 0x00 = some .hdrCorrupt ∧
    decodeTableWord 8 0xFF = some (.hdrPad1 0b1111111) := by decide

theorem witness_WrongModeRaisesSequence :
    (decode 0x261 = .ok (.encSym 0x61) ∧ idleA.mode ≠ .fault ∧ idleA.mode ≠ legalMode (.encSym 0x61)) ∧
    (decode 0x100 = .ok .encBegin ∧ (encA []).mode ≠ .fault ∧ (encA []).mode ≠ legalMode .encBegin) ∧
    (decode 0x300 = .ok .encEnd ∧ (decA 8 true).mode ≠ .fault ∧
      (decA 8 true).mode ≠ legalMode .encEnd) := by decide

theorem witness_FaultModeDiscards :
    deadA.mode = .fault ∧ (deadA.offer [.beat 0x7FF]).inp = [.beat 0x7FF] := by decide

/-- One state, beat and operand for each clause of the order of checks. -/
theorem witness_CheckOrder :
    (deadA.mode = .fault) ∧
    (idleA.mode ≠ .fault ∧ decode 0x301 = .error .argNonzero) ∧
    (idleA.mode ≠ .fault ∧ decode 0x280 = .ok (.encSym 0x80) ∧ idleA.mode ≠ legalMode (.encSym 0x80)) ∧
    ((encA []).mode = .enc ∧ (encA []).cfg.k ≤ (0x80 : Byte).toNat) ∧
    ((0x7F : Byte).toNat < (encA []).cfg.k ∧ (encA []).cfg.hasCode (0x7F : Byte).toNat = false) ∧
    (configA.hasCode (0x62 : Byte).toNat = true ∧
      Config.fits { configA with bitbufCap := some 8 } (6 + configA.codeLen (0x62 : Byte).toNat) = false) ∧
    (idleA.mode = .idle ∧ idleA.cfg.internalAt (0xFF : Byte).toNat = false ∧
      idleA.cfg.internalAt (4 : Byte).toNat = false) ∧
    (decM.mode = .dec ∧
      (payloadOf decM 0xB0).1 = [false, true] ++ true :: [false, false, false, false] ∧
      decodeFrom decM.cfg decM.root decM.node [false, true] = some ([0x41], 0) ∧
      decM.cfg.internalAt (0 : Byte).toNat = true ∧ decM.cfg.nodes ≤ childAt decM.cfg (0 : Byte).toNat true) ∧
    ((decA 8 true).mode = .dec ∧ (decA 8 true).first = true) := by decide

/-! ### Witnesses: the encoder -/

theorem witness_EncBegin : idleA.mode = .idle ∧ (encA []).mode = .enc ∧ (decA 8 true).mode = .dec := by decide

/-- Each clause at a boundary: `0x80` and `0x7F`; `LEN = 0` and `LEN = 7 > MAXLEN = 4`; a code that is one
bit too long and one that exactly fills the buffer. -/
theorem witness_EncSym :
    (encA []).mode = .enc ∧ (encA []).cfg.k ≤ (0x80 : Byte).toNat ∧
    (0x7F : Byte).toNat < configA.k ∧ configA.codeLen (0x7F : Byte).toNat = 0 ∧
    (0 : Byte).toNat < configFive.k ∧ configFive.maxLen < configFive.codeLen (0 : Byte).toNat ∧
    1 ≤ configA.codeLen (0x62 : Byte).toNat ∧ configA.codeLen (0x62 : Byte).toNat ≤ configA.maxLen ∧
    8 < 6 + configA.codeLen (0x62 : Byte).toNat ∧ 5 + configA.codeLen (0x62 : Byte).toNat ≤ 8 := by decide

theorem witness_EncEnd :
    (encA []).mode = .enc ∧ (encA []).corruptPad = false ∧ (encA []).midcode = false ∧ idleA.mode = .idle ∧
    (decA 8 false).mode = .dec := by decide

theorem witness_PadLen : 0 % 8 = 0 ∧ 8 % 8 = 0 ∧ 7 < 8 ∧ 8 % 8 = 0 := by decide

theorem witness_PackShape : pack [] = [0x01] ∧ pack (List.replicate 8 false) = 0x01 :: [0x00] := by decide

/-- The text "ab" on configuration A, in a buffer it exactly fills. -/
theorem witness_BufferHoldsEncodedText :
    idleA.mode = .idle ∧
    (∀ t ∈ [(0x61 : Byte), 0x62], t.toNat < configA.k ∧ configA.hasCode t.toNat = true) ∧
    Config.fits { configA with bitbufCap := some 4 } (encodeText configA [0x61, 0x62]).length = true := by decide

/-- A text that succeeds, and one for each of the three checks. -/
theorem witness_EncodeSession :
    idleA.mode = .idle ∧
    (∀ t ∈ [(0x61 : Byte), 0x62], t.toNat < configA.k ∧ configA.hasCode t.toNat = true) ∧
    configA.fits (encodeText configA [0x61, 0x62]).length = true ∧
    configA.k ≤ (0x80 : Byte).toNat ∧
    ((0x7A : Byte).toNat < configA.k ∧ configA.hasCode (0x7A : Byte).toNat = false) ∧
    (Config.fits { configA with bitbufCap := some 4 } (encodeText configA [0x61, 0x62]).length = true ∧
      Config.fits { configA with bitbufCap := some 4 }
        (encodeText configA ([0x61, 0x62] ++ [0x61])).length = false) := by decide

theorem witness_EmptyTextIsLegal : idleA.mode = .idle := by decide

/-! ### Witnesses: the decoder -/

/-- The least index outside the ROM, the greatest leaf index, the root. -/
theorem witness_DecBegin :
    idleA.mode = .idle ∧ (encA []).mode = .enc ∧ (decA 8 true).mode = .dec ∧
    idleA.cfg.nodes ≤ (255 : Byte).toNat ∧
    ((254 : Byte).toNat < idleA.cfg.nodes ∧ nodeTag (idleA.cfg.treeNode (254 : Byte).toNat) = false) ∧
    ((8 : Byte).toNat < idleA.cfg.nodes ∧ nodeTag (idleA.cfg.treeNode (8 : Byte).toNat) = true) := by decide

/-- A pointer at a leaf. -/
theorem witness_WalkOutsideTreeStops :
    (decA 4 false).mode = .dec ∧ (decA 4 false).cfg.internalAt (decA 4 false).node.toNat = false ∧
    (payloadOf (decA 4 false) 0xFF).1 ≠ [] ∧ (payloadOf (decA 4 true) 0x02).1 ≠ [] := by decide

/-- A child outside the ROM, a leaf, an internal node. -/
theorem witness_WalkBit :
    decM.cfg.internalAt decM.node.toNat = true ∧
    decM.cfg.nodes ≤ (child (decM.cfg.treeNode decM.node.toNat) true).toNat ∧
    ((child (configA.treeNode 8) false).toNat < configA.nodes ∧
      nodeTag (configA.treeNode (child (configA.treeNode 8) false).toNat) = false) ∧
    ((child (configA.treeNode 8) true).toNat < configA.nodes ∧
      nodeTag (configA.treeNode (child (configA.treeNode 8) true).toNat) = true) := by decide

/-- The sentinel at the first and at the last place. -/
theorem witness_PadDetect :
    (0x80 : Byte).getLsbD (7 - 0) = true ∧ (0x01 : Byte).getLsbD (7 - 7) = true ∧
    ∀ j, j < 7 → (0x01 : Byte).getLsbD (7 - j) = false := by decide

/-- A byte that is walked whole and a byte that faults, as the first byte; a later byte. -/
theorem witness_DecByte :
    idleA.mode = .idle ∧ (encA []).mode = .enc ∧ (decA 8 true).first = true ∧ (decA 8 false).first = false ∧
    (decA 8 true).mode = .dec ∧
    decodeFrom configA 8 8 (payloadOf (decA 8 true) 0xB7).1 = some ([0x61, 0x62, 0x72], 8) ∧
    decodeFrom configA 8 7 (payloadOf (decA 7 false) 0xFF).1 = some ([0x72, 0x72, 0x72], 8) ∧
    (payloadOf decM 0xB0).1 = [false, true] ++ true :: [false, false, false, false] ∧
    decodeFrom decM.cfg decM.root decM.node [false, true] = some ([0x41], 0) ∧
    decM.cfg.internalAt (0 : Byte).toNat = true ∧
    decM.cfg.nodes ≤ childAt decM.cfg (0 : Byte).toNat true := by decide

/-- A payload of each width that is walked whole. -/
theorem witness_HeaderForms :
    (decA 8 true).mode = .dec ∧ (decA 8 true).first = true ∧
    decodeFrom configA 8 8 (lowBits 0b0110111#7 7) = some ([0x61, 0x62, 0x72], 8) ∧
    decodeFrom configA 8 8 (lowBits 0b000101#6 6) = some ([0x61, 0x61, 0x61, 0x64], 8) ∧
    decodeFrom configA 8 8 (lowBits 0b11111#5 5) = some ([0x72], 6) ∧
    decodeFrom configA 8 8 (lowBits 0b1111#4 4) = some ([0x72], 7) ∧
    decodeFrom configA 8 8 (lowBits 0b110#3 3) = some ([0x62], 8) ∧
    decodeFrom configA 8 8 (lowBits 0b11#2 2) = some ([], 6) ∧
    decodeFrom configA 8 8 (lowBits 0b0#1 1) = some ([0x61], 8) := by decide

theorem witness_DecEnd :
    idleA.mode = .idle ∧ (encA []).mode = .enc ∧ (decA 8 true).mode = .dec ∧ (decA 8 true).first = true ∧
    ((decA 6 false).first = false ∧ (decA 6 false).node ≠ (decA 6 false).root) ∧
    (decA 8 false).node = (decA 8 false).root := by decide

/-- The sentinel at the first and at the last place of the first byte, and a first byte without one. -/
theorem witness_UnpackStream :
    (streamBits [0x80])[0]? = some true ∧ (streamBits [0x01, 0x00])[7]? = some true ∧
    (∀ j < 7, (streamBits [0x01, 0x00])[j]? = some false) ∧ [(0x00 : Byte), 0x6E] ≠ [] ∧
    (∀ j < 8, (streamBits [0x00, 0x6E])[j]? = some false) := by decide

/-- V10: both flags. -/
theorem witness_DecodeSession :
    idleA.mode = .idle ∧ idleA.cfg.internalAt (8 : Byte).toNat = true ∧
    unpack [0x00, 0x83] = some ([true, false, false, false, false, false, true, true], true) ∧
    decodeBits idleA.cfg 8 [true, false, false, false, false, false, true, true] =
      some ([0x63, 0x61, 0x61, 0x61], 6) := by decide

/-! ### Witnesses: laws and formats -/

/-- Configuration A satisfies R112. -/
theorem consistentA : CodeTreeConsistent configA 8 := consistent_of_check (by decide +kernel)

theorem witness_DecodeOfEncodedText :
    CodeTreeConsistent configA (8 : Byte).toNat ∧
    ∀ t ∈ [(0x61 : Byte), 0x72], t.toNat < configA.k ∧ configA.hasCode t.toNat = true :=
  ⟨consistentA, by decide⟩

theorem witness_RoundTrip :
    idleA.mode = .idle ∧ CodeTreeConsistent idleA.cfg (8 : Byte).toNat ∧
    (∀ t ∈ [(0x61 : Byte), 0x72], t.toNat < configA.k ∧ configA.hasCode t.toNat = true) ∧
    configA.fits (encodeText configA [0x61, 0x72]).length = true :=
  ⟨by decide, consistentA, by decide, by decide⟩

theorem witness_NoTreeFaultInTree :
    TreeWF (decA 7 false).cfg (decA 7 false).root.toNat ∧ (decA 7 false).mode = .dec ∧
    (∃ bits, follow configA 8 bits = some (decA 7 false).node.toNat) ∧
    (decA 7 false).cfg.internalAt (decA 7 false).node.toNat = true :=
  ⟨consistentA.tree, by decide, ⟨[true], by decide⟩, by decide⟩

/-- A walk that ends at the root and one that does not. -/
theorem witness_EndsAtRootIffWholeCodes :
    TreeWF configA (8 : Byte).toNat ∧ decodeBits configA 8 [false] = some ([0x61], 8) ∧
    decodeBits configA 8 [true] = some ([], 7) := ⟨consistentA.tree, by decide, by decide⟩

theorem witness_ConsistentIsPrefixFree :
    CodeTreeConsistent configA 8 ∧ 0x61 < configA.k ∧ 0x62 < configA.k ∧ 0x61 ≠ 0x62 ∧
    configA.codeLen 0x61 ≠ 0 ∧ configA.codeLen 0x62 ≠ 0 :=
  ⟨consistentA, by decide, by decide, by decide, by decide, by decide⟩

theorem witness_BitsAndBytes : [true, false, true, false, true, false, true, false].length = 8 := by decide

theorem witness_CodeBits : 0 < 1 ∧ 126 < 127 := by decide

/-- R53 at the least `K`, at `K = 5` and at the greatest, each with the greatest `LEN` its field holds. -/
theorem witness_RomFields :
    (1 < 2 ^ Config.lenW { Config.blank with k := 2 } ∧ 1 < 2 ^ Config.maxLen { Config.blank with k := 2 } ∧
      0 < Config.maxLen { Config.blank with k := 2 }) ∧
    (7 < 2 ^ configFive.lenW ∧ 15 < 2 ^ configFive.maxLen ∧ 3 < configFive.maxLen) ∧
    (127 < 2 ^ Config.blank.lenW ∧ 2 ^ 127 - 1 < 2 ^ Config.blank.maxLen) ∧
    Config.blank.k = 128 ∧ 126 < 127 := by decide

/-- R6: the least `K`, the least with three bits, this hardware's. -/
theorem witness_LengthField :
    2 ≤ Config.k { Config.blank with k := 2 } ∧ Config.lenW { Config.blank with k := 2 } = 1 ∧
    Config.lenW configFive = 3 ∧ Config.lenW Config.blank = 7 ∧ 5 - 1 < 2 ^ 3 := by decide

theorem witness_TextReadBack :
    commandText (.encSym 0x61) = some "ENC_SYM 0x61".toList ∧ commandText .decEnd = some "DEC_END".toList := by
  decide

/-- The single-symbol case at its wrap, and two symbols. -/
theorem witness_FrequencyTable :
    (2 ≤ 2 ∧ [(1 : Byte)] ≠ [] ∧ (∀ t ∈ [(1 : Byte)], t.toNat < 2) ∧ (∀ t ∈ [(1 : Byte)], t = 1) ∧
      [(1 : Byte)].dedup.length = 1) ∧
    ((∀ t ∈ [(0 : Byte), 127, 0], t.toNat < 128) ∧ [(0 : Byte), 127, 0].dedup.length = 2) := by decide

theorem witness_TreeBuilderLayout :
    2 ≤ [SymbolFrequency.mk (some 0) (0 : Nat), ⟨some 1, 1⟩].length ∧
    [SymbolFrequency.mk (some 0) (0 : Nat), ⟨some 1, 1⟩][1]? = some ⟨some 1, 1⟩ ∧
    2 ≤ (List.replicate 128 (SymbolFrequency.mk (some 0) (0 : Nat))).length ∧
    (List.replicate 128 (SymbolFrequency.mk (some 0) (0 : Nat))).length ≤ 128 :=
  ⟨by decide, by decide, by simp, by simp⟩

end Sys2Proof.Tests
end

/-! ### The length field (R6) -/

namespace Sys2Proof

/-- Widths that hold every length `0` to `MAXLEN` are exactly those from `LEN_W` up. The premise excludes
`K ≤ 1`, where width 0 already holds `MAXLEN = 0` and `lenW` is still 1. -/
theorem Config.maxLen_lt_two_pow_iff (c : Config) (hk : 2 ≤ c.k) (w : Nat) :
    c.maxLen < 2 ^ w ↔ c.lenW ≤ w := by
  have hne : c.k - 1 ≠ 0 := by omega
  exact (Nat.log2_lt hne).symm.trans Nat.lt_iff_add_one_le

/-- Settles O56: `LEN_W` holds `MAXLEN`, and no smaller width does. -/
theorem lengthField : Obligations.LengthField := by
  intro c hk
  have hwidth : ∀ w, c.k - 1 < 2 ^ w ↔ c.lenW ≤ w := c.maxLen_lt_two_pow_iff hk
  exact ⟨rfl, (hwidth c.lenW).mpr le_rfl, fun w => (hwidth w).mp⟩

end Sys2Proof

/-! ### What a step does, by the decoded command -/

namespace Sys2Proof.Machine

/-- The eight bits a header row's byte has, and its payload and corrupt mark as the first byte of a session
(R56, R87); nothing for a command. -/
def rowBits : Instr → Bits × (Bits × Bool)
  | .hdrPad1 p => (sentinel 1 ++ lowBits p 7, lowBits p 7, false)
  | .hdrPad2 p => (sentinel 2 ++ lowBits p 6, lowBits p 6, false)
  | .hdrPad3 p => (sentinel 3 ++ lowBits p 5, lowBits p 5, false)
  | .hdrPad4 p => (sentinel 4 ++ lowBits p 4, lowBits p 4, false)
  | .hdrPad5 p => (sentinel 5 ++ lowBits p 3, lowBits p 3, false)
  | .hdrPad6 p => (sentinel 6 ++ lowBits p 2, lowBits p 2, false)
  | .hdrPad7 p => (sentinel 7 ++ lowBits p 1, lowBits p 1, false)
  | .hdrPad8 => (sentinel 8, [], false)
  | .hdrCorrupt => (List.replicate 8 false, [], true)
  | _ => ([], [], false)

/-- The table of the nine forms agrees with the scan of pad detection, on each of the 256 bytes. -/
theorem rowBits_headerForm : ∀ b : Byte, rowBits (headerForm b) = (bitsOf b, padDetect b) := by
  decide

/-- The form of a byte has the legal mode and the effect of a header row with its bits. -/
theorem headerForm_takes_rowBits (b : Byte) :
    legalMode (headerForm b) = .dec ∧
    bodyOf (headerForm b) = takeByte (rowBits (headerForm b)).1 (rowBits (headerForm b)).2 := by
  unfold headerForm
  repeat' split
  all_goals exact ⟨rfl, rfl⟩

/-- A header row and the `DEC_BYTE` of its byte are one instruction (R56, R86, R87). -/
theorem exec_headerForm (b : Byte) (s : State) : exec (headerForm b) s = exec (.decByte b) s := by
  obtain ⟨hmode, hbody⟩ := headerForm_takes_rowBits b
  rw [exec_eq_inMode, exec_eq_inMode, hmode, hbody, rowBits_headerForm]
  rfl

/-- Issuing a command as its row does not change what it does (log 11). -/
theorem exec_issue (i : Instr) (s t : State) : exec (issue i s) t = exec i t := by
  cases i with
  | decByte b =>
    simp only [issue]
    split
    · exact exec_headerForm b t
    · rfl
  | _ => rfl

section StepEquations

variable {s : State} {b : Beat} {rest : List HostMove}

/-- With nothing waiting the block waits. -/
theorem step_of_nil (hinp : s.inp = []) : step s = .next s := by
  simp [step, sequence, hinp]

theorem step_of_rst (hinp : s.inp = .rst :: rest) : step s = .next (applyReset (s.setInp rest)) := by
  simp [step, sequence, hinp, takeMove]

/-- In mode `FAULT` a beat is only taken off `IN` (R133). -/
theorem step_of_fault (hinp : s.inp = .beat b :: rest) (hf : s.mode = .fault) :
    step s = .next (s.setInp rest) := by
  simp [step, sequence, hinp, takeMove, takeBeat, hf]

/-- An illegal beat raises `IllegalCommand` (R124). -/
theorem step_of_illegal {e : Illegal} (hinp : s.inp = .beat b :: rest) (hf : s.mode ≠ .fault)
    (hd : decode b = .error e) : step s = .next (raise .illegalCommand (s.setInp rest)) := by
  simp [step, sequence, hinp, takeMove, takeBeat, hf, hd]

/-- Outside mode `FAULT` a beat that decodes is its command, taken off `IN` (R8, R23). -/
theorem step_of_decode {i : Instr} (hinp : s.inp = .beat b :: rest) (hf : s.mode ≠ .fault)
    (hd : decode b = .ok i) : step s = exec i (s.setInp rest) := by
  simp [step, sequence, hinp, takeMove, takeBeat, hf, hd, exec_issue]

end StepEquations

/-- The causes the block raises (R120, R20). -/
def blockCauses : List Cause :=
  [.invalidBitstring, .illegalCommand, .sequence, .symbolRange, .bufferOverflow, .treeFault, .decEmpty]

theorem code_mem_blockCodes {c : Cause} : c ∈ blockCauses → c.code ∈ blockCodes := by
  cases c <;> decide

theorem closeDecode_of_first {s : State} (h : s.first = true) : closeDecode s = raise .decEmpty s := by
  simp [closeDecode, h]

theorem closeDecode_of_not_first {s : State} (h : s.first = false) :
    closeDecode s = ((s.setMidcode (endsMidcode s)).emit .done
      (statusByte (endsMidcode s) s.corruptPad)).setMode .idle := by
  simp [closeDecode, h]

/-- Everything the beat `b`, taken off `IN`, can make of the state: it is discarded, it raises a fault, or
it is a command that passes its checks (R131). -/
inductive BeatEffect (b : Beat) (s : State) : State → Prop where
  | discarded : s.mode = .fault → BeatEffect b s s
  | raised (c : Cause) : s.mode ≠ .fault → c ∈ blockCauses → BeatEffect b s (raise c s)
  | encBegin : decode b = .ok .encBegin → s.mode = .idle → BeatEffect b s (openEncode s)
  | encSym (sym : Byte) : decode b = .ok (.encSym sym) → s.mode = .enc →
      s.cfg.fits (s.bitbuf.length + s.cfg.codeLen sym.toNat) = true →
      BeatEffect b s (s.setBitbuf (s.bitbuf ++ symbolBits s.cfg sym.toNat))
  | encEnd : decode b = .ok .encEnd → s.mode = .enc → BeatEffect b s (closeEncode s)
  | decBegin (r : Byte) : decode b = .ok (.decBegin r) → s.mode = .idle →
      s.cfg.internalAt r.toNat = true → BeatEffect b s (openDecode r s)
  | decByte {s' : State} : s.mode = .dec → ByteTaken s s' → BeatEffect b s s'
  | decEnd : decode b = .ok .decEnd → s.mode = .dec → s.first = false → BeatEffect b s (closeDecode s)

theorem beatEffect_of_exec {b : Beat} {i : Instr} {s s' : State} (hf : s.mode ≠ .fault)
    (hd : decode b = .ok i) (h : exec i s = .next s') : BeatEffect b s s' := by
  rcases exec_cases h with ⟨hf', -⟩ | ⟨-, -, rfl⟩ | ⟨hmode, hbody⟩
  · exact absurd hf' hf
  · exact .raised .sequence hf (by decide)
  · rcases bodyOf_cases hbody with ⟨rfl, rfl⟩ | ⟨sym, rfl, ⟨c, hc, rfl, -⟩ | ⟨hfit, rfl⟩⟩ | ⟨rfl, rfl⟩ |
      ⟨r, rfl, ⟨hint, rfl⟩ | rfl⟩ | ⟨hdec, hbyte⟩ | ⟨rfl, rfl⟩
    · exact .encBegin hd hmode
    · exact .raised c hf (by revert hc; cases c <;> decide)
    · exact .encSym sym hd hmode hfit
    · exact .encEnd hd hmode
    · exact .decBegin r hd hmode hint
    · exact .raised .treeFault hf (by decide)
    · exact .decByte (hmode.trans hdec) hbyte
    · cases hfirst : s.first with
      | true => rw [closeDecode_of_first hfirst]; exact .raised .decEmpty hf (by decide)
      | false => exact .decEnd hd hmode hfirst

/-- Everything a step that answers a next state can do, by what it does to the state: wait, reset, or the
effect of the beat taken (R8, R23, R140). -/
theorem step_effect {s s' : State} (h : step s = .next s') :
    (s.inp = [] ∧ s' = s) ∨
    (∃ rest, s.inp = .rst :: rest ∧ s' = applyReset (s.setInp rest)) ∨
    (∃ b rest, s.inp = .beat b :: rest ∧ BeatEffect b (s.setInp rest) s') := by
  rcases step_cases h with hwait | hrst | ⟨b, rest, hinp, ⟨hf, rfl⟩ | ⟨hf, -, rfl⟩ | ⟨hf, i, hd, hexec⟩⟩
  · exact .inl hwait
  · exact .inr (.inl hrst)
  · exact .inr (.inr ⟨b, rest, hinp, .discarded hf⟩)
  · exact .inr (.inr ⟨b, rest, hinp, .raised .illegalCommand hf (by decide)⟩)
  · rw [exec_issue] at hexec
    exact .inr (.inr ⟨b, rest, hinp, beatEffect_of_exec hf hd hexec⟩)

/-- A run of `n + 1` steps is a step and a run of `n` steps. -/
theorem stepN_succ_eq_next {n : Nat} {s s' : State} :
    stepN (n + 1) s = .next s' ↔ ∃ u, step s = .next u ∧ stepN n u = .next s' := by
  simp only [stepN]
  cases step s <;> simp

end Sys2Proof.Machine

/-! ### The invariants of the state (R28) -/

namespace Sys2Proof.Machine

/-- An empty buffer is within any capacity. -/
@[simp] theorem fits_zero (c : Config) : c.fits 0 = true := by
  unfold Config.fits
  split <;> simp

/-- Outside mode `FAULT` no fault code is held (R28 item 1). -/
theorem State.Inv.faultCode_eq_zero {s : State} (h : s.Inv) (hf : s.mode ≠ .fault) : s.faultCode = 0 :=
  not_not.1 fun hc => hf (h.fault.2 hc)

section Introduction

variable {s : State} (hcfg : s.cfg.wf = true)
include hcfg

/-- What the invariants ask for in mode `IDLE`. -/
theorem inv_of_idle (hmode : s.mode = .idle) (hcode : s.faultCode = 0) (hbuf : s.bitbuf = []) :
    s.Inv := by
  constructor <;> simp [hcfg, hmode, hcode, hbuf, blockCodes]

/-- What the invariants ask for in mode `ENC`. -/
theorem inv_of_enc (hmode : s.mode = .enc) (hcode : s.faultCode = 0)
    (hfits : s.cfg.fits s.bitbuf.length = true) (hpad : s.corruptPad = false)
    (hmid : s.midcode = false) : s.Inv := by
  constructor <;> simp [hcfg, hmode, hcode, hfits, hpad, hmid, blockCodes]

/-- What the invariants ask for in mode `DEC`. -/
theorem inv_of_dec (hmode : s.mode = .dec) (hcode : s.faultCode = 0) (hbuf : s.bitbuf = [])
    (hroot : s.cfg.internalAt s.root.toNat = true) (hnode : s.cfg.internalAt s.node.toNat = true)
    (hfirst : s.first = true → s.node = s.root ∧ s.corruptPad = false) (hmid : s.midcode = false) :
    s.Inv := by
  constructor <;> simp [hcfg, hmode, hcode, hbuf, hroot, hnode, hmid, blockCodes]
  exact hfirst

/-- Fault entry by a cause of the block establishes the invariants. -/
theorem inv_raise {c : Cause} (hc : c ∈ blockCauses) : (raise c s).Inv := by
  constructor <;> simp [hcfg, code_mem_blockCodes hc]

theorem inv_applyReset : (applyReset s).Inv := inv_of_idle hcfg rfl rfl rfl

end Introduction

/-- The invariants do not speak of the waiting moves. -/
theorem State.Inv.setInp {s : State} (h : s.Inv) (moves : List HostMove) : (s.setInp moves).Inv :=
  ⟨h.cfg, h.fault, h.code, h.buffer, h.capacity, h.root, h.node, h.encFlags, h.first, h.decFlags⟩

/-- A byte of the stream keeps the invariants: the walk pointer stays at internal nodes (R15, R89). -/
theorem ByteTaken.inv {s s' : State} (hb : ByteTaken s s') (h : s.Inv) (hmode : s.mode = .dec) :
    s'.Inv := by
  obtain ⟨bits, corrupt, -, -, ⟨syms, last, hwalk, rfl⟩ | ⟨_, _, _, _, _, -, -, -, -, rfl⟩⟩ := hb
  · have hroot := h.root hmode
    exact inv_of_dec h.cfg hmode (h.faultCode_eq_zero (by simp [hmode])) (h.buffer (by simp [hmode]))
      hroot (decodeFrom_internal hroot (h.node hmode) hwalk) (by simp) (h.decFlags hmode)
  · exact inv_raise (s := (s.received corrupt).walked _ _) h.cfg (by decide)

/-- Every effect of a beat keeps the invariants. -/
theorem BeatEffect.inv {b : Beat} {s s' : State} (he : BeatEffect b s s') (h : s.Inv) : s'.Inv := by
  have hcode {m : Mode} (hm : s.mode = m) (hne : m ≠ .fault) : s.faultCode = 0 :=
    h.faultCode_eq_zero (hm ▸ hne)
  cases he with
  | discarded => exact h
  | raised c _ hc => exact inv_raise h.cfg hc
  | encBegin _ hm => exact inv_of_enc h.cfg rfl (hcode hm (by simp)) (by simp) rfl rfl
  | encSym sym _ hm hfit =>
    obtain ⟨hpad, hmid⟩ := h.encFlags hm
    have hlen : (symbolBits s.cfg sym.toNat).length = s.cfg.codeLen sym.toNat := lowBits_length _ _
    exact inv_of_enc h.cfg hm (hcode hm (by simp)) (by simp [hlen, hfit]) hpad hmid
  | encEnd _ hm => exact inv_of_idle h.cfg rfl (hcode hm (by simp)) rfl
  | decBegin r _ hm hint =>
    exact inv_of_dec h.cfg rfl (hcode hm (by simp)) (h.buffer (by simp [hm])) hint hint (by simp) rfl
  | decByte hm hb => exact hb.inv h hm
  | decEnd _ hm hfirst =>
    rw [closeDecode_of_not_first hfirst]
    exact inv_of_idle h.cfg rfl (hcode hm (by simp)) (h.buffer (by simp [hm]))

/-- Every step keeps the invariants (R28). -/
theorem step_inv {s s' : State} (h : s.Inv) (hs : step s = .next s') : s'.Inv := by
  rcases step_effect hs with ⟨-, rfl⟩ | ⟨rest, -, rfl⟩ | ⟨b, rest, -, he⟩
  · exact h
  · exact inv_applyReset (h.setInp rest).cfg
  · exact he.inv (h.setInp rest)

/-- The only effect that leaves a decode session without a byte taken is its beginning, which emits nothing. -/
theorem BeatEffect.fresh_session {b : Beat} {s s' : State} (he : BeatEffect b s s')
    (hmode : s'.mode = .dec) (hfirst : s'.first = true) :
    opensSession b s = true ∧ s'.out = s.out := by
  cases he with
  | decBegin r hd hm _ => exact ⟨opensSession_iff.2 ⟨hm, .inr ⟨r, hd⟩⟩, rfl⟩
  | decByte _ hb =>
    obtain ⟨_, _, -, -, ⟨_, _, -, rfl⟩ | ⟨_, _, _, _, _, -, -, -, -, rfl⟩⟩ := hb
    · cases hfirst
    · cases hmode
  | decEnd _ _ hf => rw [closeDecode_of_not_first hf] at hmode; cases hmode
  | discarded hm => rw [hm] at hmode; cases hmode
  | encSym _ _ hm _ => rw [State.setBitbuf_mode, hm] at hmode; cases hmode
  | _ => cases hmode

/-- A decode session that has taken no byte has emitted nothing, step by step (R28 item 6). -/
theorem step_nothingSaidYet {s s' : State} {beats : List OutBeat} (h : s.NothingSaidYet beats)
    (hs : step s = .next s') : s'.NothingSaidYet (sessionBeats beats (stepEvents s)) := by
  intro hmode hfirst
  rcases step_effect hs with ⟨hinp, rfl⟩ | ⟨rest, -, rfl⟩ | ⟨b, rest, hinp, he⟩
  · rw [stepEvents_of_nil hinp]
    exact h hmode hfirst
  · cases hmode
  · obtain ⟨hopens, hout⟩ := he.fresh_session hmode hfirst
    have hopens' : opensSession b s = true := hopens
    have hout' : s'.out = s.out ++ [] := hout.trans (List.append_nil _).symm
    simp [stepEvents_of_beat hinp hs hout', hopens', sessionBeats]

/-- A walk that starts in an open decode session answers a next state: its start is an internal node. -/
theorem walk_defined {s : State} (h : s.Inv) (hm : s.mode = .dec) (bits : Bits) (corrupt : Bool) :
    ∃ s', (walkBits bits (s.received corrupt)).outcome = .next s' := by
  have hstart : walkBits bits (s.received corrupt) ≠ .stuck := walkBits_ne_stuck (h.root hm) (h.node hm)
  cases hw : walkBits bits (s.received corrupt) with
  | next s' => exact ⟨s', rfl⟩
  | raised s' => exact ⟨s', rfl⟩
  | stuck => exact absurd hw hstart

theorem takeByte_defined {s : State} (h : s.Inv) (hm : s.mode = .dec) (all : Bits) (hdr : Bits × Bool) :
    ∃ s', takeByte all hdr s = .next s' := by
  rw [takeByte_eq]
  split
  · exact walk_defined h hm _ _
  · exact walk_defined h hm _ _

/-- In a state that meets the invariants every instruction is defined. -/
theorem exec_defined {s : State} (h : s.Inv) (i : Instr) : ∃ s', exec i s = .next s' := by
  rw [exec_eq_inMode]
  rcases inMode_cases (legalMode i) (bodyOf i) s with ⟨-, he⟩ | ⟨-, -, he⟩ | ⟨-, hm, he⟩ <;> rw [he]
  · exact ⟨_, rfl⟩
  · exact ⟨_, rfl⟩
  · cases i with
    | encBegin | encSym _ | encEnd | decBegin _ | decEnd => exact ⟨_, rfl⟩
    | _ => exact takeByte_defined h hm _ _

/-- In a state that meets the invariants the step is defined (R23). -/
theorem step_defined {s : State} (h : s.Inv) : ∃ s', step s = .next s' := by
  cases hinp : s.inp with
  | nil => exact ⟨_, step_of_nil hinp⟩
  | cons m rest =>
    cases m with
    | rst => exact ⟨_, step_of_rst hinp⟩
    | beat b =>
      by_cases hf : s.mode = .fault
      · exact ⟨_, step_of_fault hinp hf⟩
      · cases hd : decode b with
        | error e => exact ⟨_, step_of_illegal hinp hf hd⟩
        | ok i => rw [step_of_decode hinp hf hd]; exact exec_defined (h.setInp rest) i

end Sys2Proof.Machine

/-! ### What no step changes: the configuration and the past of `OUT` (R24, R26) -/

namespace Sys2Proof.Machine

theorem ByteTaken.cfg_eq {s s' : State} (hb : ByteTaken s s') : s'.cfg = s.cfg := by
  obtain ⟨_, _, -, -, ⟨_, _, -, rfl⟩ | ⟨_, _, _, _, _, -, -, -, -, rfl⟩⟩ := hb <;> rfl

/-- What a byte emits is appended: `SYM` beats, and at a fault the `ERR`. -/
theorem ByteTaken.out_prefix {s s' : State} (hb : ByteTaken s s') : s.out <+: s'.out := by
  obtain ⟨_, _, -, -, ⟨_, _, -, rfl⟩ | ⟨_, _, _, _, _, -, -, -, -, rfl⟩⟩ := hb
  · exact List.prefix_append _ _
  · exact (List.prefix_append _ _).trans (List.prefix_append _ _)

theorem BeatEffect.cfg_eq {b : Beat} {s s' : State} (he : BeatEffect b s s') : s'.cfg = s.cfg := by
  cases he with
  | decByte _ hb => exact hb.cfg_eq
  | decEnd _ _ hf => rw [closeDecode_of_not_first hf]; rfl
  | _ => rfl

theorem BeatEffect.out_prefix {b : Beat} {s s' : State} (he : BeatEffect b s s') : s.out <+: s'.out := by
  cases he with
  | raised | encEnd => exact List.prefix_append _ _
  | decByte _ hb => exact hb.out_prefix
  | decEnd _ _ hf => rw [closeDecode_of_not_first hf]; exact List.prefix_append _ _
  | discarded | encBegin | encSym | decBegin => exact List.prefix_rfl

theorem step_cfg_eq {s s' : State} (hs : step s = .next s') : s'.cfg = s.cfg := by
  rcases step_effect hs with ⟨-, rfl⟩ | ⟨rest, -, rfl⟩ | ⟨b, rest, -, he⟩
  · rfl
  · rfl
  · exact he.cfg_eq

theorem step_out_prefix {s s' : State} (hs : step s = .next s') : s.out <+: s'.out := by
  rcases step_effect hs with ⟨-, rfl⟩ | ⟨rest, -, rfl⟩ | ⟨b, rest, -, he⟩
  · exact List.prefix_rfl
  · exact List.prefix_rfl
  · exact he.out_prefix

theorem stepN_out_prefix {n : Nat} {s s' : State} (hs : stepN n s = .next s') : s.out <+: s'.out := by
  induction n generalizing s with
  | zero => cases hs; exact List.prefix_rfl
  | succ n ih =>
    obtain ⟨u, hstep, hrun⟩ := stepN_succ_eq_next.1 hs
    exact (step_out_prefix hstep).trans (ih hrun)

end Sys2Proof.Machine

/-! ### Runs that differ in the walk registers only (93 U11) -/

namespace Sys2Proof.Machine

/-- The state with other values in `ROOT`, `NODE` and `FIRST`. -/
def State.withWalk (r m : Byte) (f : Bool) (s : State) : State :=
  { s with root := r, node := m, first := f }

@[simp] theorem withWalk_mode (r m : Byte) (f : Bool) (s : State) :
    (s.withWalk r m f).mode = s.mode := (rfl)

@[simp] theorem withWalk_inp (r m : Byte) (f : Bool) (s : State) :
    (s.withWalk r m f).inp = s.inp := (rfl)

@[simp] theorem withWalk_cfg (r m : Byte) (f : Bool) (s : State) :
    (s.withWalk r m f).cfg = s.cfg := (rfl)

@[simp] theorem withWalk_bitbuf (r m : Byte) (f : Bool) (s : State) :
    (s.withWalk r m f).bitbuf = s.bitbuf := (rfl)

/-- Two states equal but for the walk registers, and these too in mode `DEC`, where they are read. -/
inductive AgreeButWalk : State → State → Prop where
  | same (s : State) : AgreeButWalk s s
  | walk (s : State) (r m : Byte) (f : Bool) : s.mode ≠ .dec → AgreeButWalk s (s.withWalk r m f)

theorem AgreeButWalk.eq_but_walk {s t : State} (h : AgreeButWalk s t) :
    { s with root := t.root, node := t.node, first := t.first } = t := by
  cases h <;> rfl

theorem AgreeButWalk.eq_of_dec {s t : State} (h : AgreeButWalk s t) (hm : s.mode = .dec) : t = s := by
  cases h with
  | same => rfl
  | walk _ _ _ hne => exact absurd hm hne

/-- Fault entry keeps the walk registers. -/
theorem agree_raise (c : Cause) (s : State) (r m : Byte) (f : Bool) :
    AgreeButWalk (raise c s) (raise c (s.withWalk r m f)) :=
  .walk (raise c s) r m f (by simp)

section WithWalk

variable (r m : Byte) (f : Bool)

theorem appendSymbol_withWalk (sym : Byte) (s : State) :
    appendSymbol sym (s.withWalk r m f) = (appendSymbol sym s).withWalk r m f := by
  simp only [appendSymbol, withWalk_cfg, withWalk_bitbuf, apply_ite (State.withWalk r m f)]
  rfl

/-- `ENC_SYM` opens no decode session: it appends, or it enters `FAULT` (R72). -/
theorem appendSymbol_mode_ne_dec (sym : Byte) {s : State} (hne : s.mode ≠ .dec) :
    (appendSymbol sym s).mode ≠ .dec := by
  unfold appendSymbol
  repeat' split
  · simp
  · simp
  · simp
  · exact hne

/-- `DEC_BEGIN` writes all three walk registers, or faults (R85). -/
theorem beginDecode_agree (root : Byte) (s : State) :
    AgreeButWalk (beginDecode root s) (beginDecode root (s.withWalk r m f)) := by
  simp only [beginDecode, withWalk_cfg]
  split
  · exact .same (openDecode root s)
  · exact agree_raise .treeFault s r m f

/-- An effect of another mode than `DEC` reads no walk register: with others it answers a state that agrees. -/
theorem bodyOf_agree {i : Instr} {s s' : State} (hm : s.mode = legalMode i) (hne : s.mode ≠ .dec)
    (h : bodyOf i s = .next s') :
    ∃ t', bodyOf i (s.withWalk r m f) = .next t' ∧ AgreeButWalk s' t' := by
  cases i with
  | encBegin => cases h; exact ⟨_, rfl, .walk (openEncode s) r m f (by simp)⟩
  | encSym sym =>
    cases h
    refine ⟨_, rfl, ?_⟩
    rw [appendSymbol_withWalk]
    exact .walk _ r m f (appendSymbol_mode_ne_dec sym hne)
  | encEnd => cases h; exact ⟨_, rfl, .walk (closeEncode s) r m f (by simp)⟩
  | decBegin root => cases h; exact ⟨_, rfl, beginDecode_agree r m f root s⟩
  | _ => exact absurd hm hne

theorem exec_agree {i : Instr} {s s' : State} (hne : s.mode ≠ .dec) (h : exec i s = .next s') :
    ∃ t', exec i (s.withWalk r m f) = .next t' ∧ AgreeButWalk s' t' := by
  rcases exec_cases h with ⟨hf, rfl⟩ | ⟨hf, hm, rfl⟩ | ⟨hm, hbody⟩
  · exact ⟨_, exec_of_fault hf, .walk s' r m f hne⟩
  · exact ⟨raise .sequence (s.withWalk r m f), (exec_eq_inMode i _).trans (inMode_of_ne hf hm),
      agree_raise .sequence s r m f⟩
  · rw [exec_of_legal (s := s.withWalk r m f) hm]
    exact bodyOf_agree r m f hm hne hbody

/-- Outside mode `DEC` a step reads no walk register. -/
theorem step_withWalk_agree {s s' : State} (hne : s.mode ≠ .dec) (h : step s = .next s') :
    ∃ t', step (s.withWalk r m f) = .next t' ∧ AgreeButWalk s' t' := by
  rcases step_cases h with ⟨hinp, rfl⟩ | ⟨rest, hinp, rfl⟩ |
    ⟨b, rest, hinp, ⟨hf, rfl⟩ | ⟨hf, ⟨e, hd⟩, rfl⟩ | ⟨hf, i, hd, hexec⟩⟩
  · exact ⟨_, step_of_nil hinp, .walk s' r m f hne⟩
  · exact ⟨_, step_of_rst hinp, .same (applyReset (s.setInp rest))⟩
  · exact ⟨_, step_of_fault hinp hf, .walk (s.setInp rest) r m f hne⟩
  · exact ⟨_, step_of_illegal hinp hf hd, agree_raise .illegalCommand (s.setInp rest) r m f⟩
  · rw [step_of_decode (s := s.withWalk r m f) hinp hf hd]
    rw [exec_issue] at hexec
    exact exec_agree (s := s.setInp rest) r m f hne hexec

end WithWalk

/-- Steps keep the agreement of two states. -/
theorem AgreeButWalk.step_agree {s t s' : State} (ha : AgreeButWalk s t) (h : step s = .next s') :
    ∃ t', step t = .next t' ∧ AgreeButWalk s' t' := by
  cases ha with
  | same => exact ⟨s', h, .same s'⟩
  | walk r m f hne => exact step_withWalk_agree r m f hne h

theorem AgreeButWalk.stepN_agree {n : Nat} {s t s' : State} (ha : AgreeButWalk s t)
    (h : stepN n s = .next s') : ∃ t', Machine.stepN n t = .next t' ∧ AgreeButWalk s' t' := by
  induction n generalizing s t with
  | zero => cases h; exact ⟨t, rfl, ha⟩
  | succ n ih =>
    obtain ⟨u, hstep, hrun⟩ := stepN_succ_eq_next.1 h
    obtain ⟨v, hstep', hv⟩ := ha.step_agree hstep
    obtain ⟨t', hrun', ht'⟩ := ih hv hrun
    exact ⟨t', stepN_succ_eq_next.2 ⟨v, hstep', hrun'⟩, ht'⟩

end Sys2Proof.Machine

/-! ### Words: the fields of a beat, of an output beat and of `STATUS` (R20, R50, R51) -/

namespace Sys2Proof

@[simp] theorem beatOp_cmdBeat (op : BitVec 3) (arg : Byte) : beatOp (cmdBeat op arg) = op :=
  BitVec.extractLsb'_append_eq_left

@[simp] theorem beatArg_cmdBeat (op : BitVec 3) (arg : Byte) : beatArg (cmdBeat op arg) = arg :=
  BitVec.extractLsb'_append_eq_right

theorem decode_decByte_beat (x : Byte) : decode (cmdBeat 0b101 x) = .ok (.decByte x) := by
  simp [decode]

end Sys2Proof

namespace Sys2Proof.Machine

theorem OutBeat.kind_of_word (o : OutBeat) : o.word.extractLsb' 8 2 = o.kind.code :=
  BitVec.extractLsb'_append_eq_left

theorem OutBeat.data_of_word (o : OutBeat) : o.word.extractLsb' 0 8 = o.data :=
  BitVec.extractLsb'_append_eq_right

theorem statusByte_fields (midcode corruptPad : Bool) :
    (statusByte midcode corruptPad).getLsbD 0 = corruptPad ∧
    (statusByte midcode corruptPad).getLsbD 1 = midcode ∧
    (statusByte midcode corruptPad).toNat < 4 := by
  cases midcode <;> cases corruptPad <;> decide

/-! ### Placing a word of the opcode table (log 13) -/

/-- The placed header byte meets an open decode session with a tree to walk, whichever of the three states
`readyForHeader` chooses. -/
theorem readyForHeader_spec (s : State) :
    (readyForHeader s).mode = .dec ∧ (readyForHeader s).first = true ∧
    (readyForHeader s).cfg.internalAt (readyForHeader s).node.toNat = true := by
  unfold readyForHeader
  split
  next hready => exact hready
  next =>
    split
    next hroot => exact ⟨rfl, rfl, hroot⟩
    next => exact ⟨rfl, rfl, by simp [Config.internalAt, Config.treeNode, fallbackTree, Memory.read, nodeTag]⟩

theorem decode_of_decodeTableWord {w : Nat} {i : Instr} (h : decodeTableWord 16 w = some i) :
    decode (BitVec.ofNat 11 w) = .ok i := by
  simp only [decodeTableWord, Nat.reduceLeDiff, if_false] at h
  split at h
  · cases hd : decode (BitVec.ofNat 11 w) with
    | error e => simp [hd] at h
    | ok j => simpa [hd] using h
  · cases h

theorem headerForm_of_decodeTableWord {w : Nat} {i : Instr} (h : decodeTableWord 8 w = some i) :
    headerForm (BitVec.ofNat 8 w) = i := by
  simp only [decodeTableWord, le_refl, if_true] at h
  split at h
  · exact Option.some.inj h
  · cases h

theorem step_withFetchWord_command {s : State} {w : Nat} {i : Instr} (hf : s.mode ≠ .fault)
    (h : decodeTableWord 16 w = some i) : step (s.withFetchWord 16 w) = exec i s :=
  step_of_decode (s := s.withFetchWord 16 w) (b := BitVec.ofNat 11 w) (rest := s.inp) rfl hf
    (decode_of_decodeTableWord h)

theorem step_withFetchWord_header {s : State} {w : Nat} {i : Instr}
    (h : decodeTableWord 8 w = some i) : step (s.withFetchWord 8 w) = exec i (readyForHeader s) := by
  obtain ⟨hmode, -, -⟩ := readyForHeader_spec s
  have hf : (readyForHeader s).mode ≠ .fault := by simp [hmode]
  have hstep := step_of_decode (s := s.withFetchWord 8 w) (rest := (readyForHeader s).inp) rfl hf
    (decode_decByte_beat (BitVec.ofNat 8 w))
  rw [hstep, ← headerForm_of_decodeTableWord h, exec_headerForm]
  rfl

end Sys2Proof.Machine

/-! ### The statements settled -/

namespace Sys2Proof

open Sys2Proof.Machine

/-- Settles O3: the step's case analysis `step_effect`, each case keeping the invariants. -/
theorem invariantKept : Obligations.InvariantKept :=
  ⟨fun _ _ h hs => step_inv h hs, fun _ _ _ h hs => step_nothingSaidYet h hs⟩

/-- Settles O12, by induction on the number of steps over `AgreeButWalk`. -/
theorem walkRegistersIrrelevant : Obligations.WalkRegistersIrrelevant := by
  intro n s s' r m f hne hs
  obtain ⟨t', ht, ha⟩ := (AgreeButWalk.walk s r m f hne).stepN_agree hs
  exact ⟨t', ht, ha.eq_but_walk, ha.eq_of_dec⟩

/-- Settles O4: the invariants give every walk its start. -/
theorem everyMoveHasAStep : Obligations.EveryMoveHasAStep := fun _ h => step_defined h

/-- Settles O5, by the cases of a step. -/
theorem configurationConstant : Obligations.ConfigurationConstant := fun _ _ hs => step_cfg_eq hs

/-- Settles O6, by induction on the number of steps. -/
theorem outOnlyGrows : Obligations.OutOnlyGrows := fun _ _ _ hs => stepN_out_prefix hs

/-- Settles O2: power-on is an idle state with nothing held; the blank configuration is in range. -/
theorem powerOnMeetsInvariant : Obligations.PowerOnMeetsInvariant := by
  have hon (c : Config) (hc : c.wf = true) :
      (State.powerOn c).Inv ∧ (State.powerOn c).NothingSaidYet [] :=
    ⟨inv_of_idle hc rfl rfl rfl, fun _ _ => rfl⟩
  exact ⟨hon, hon Config.blank (by decide)⟩

/-- Settles O22: the step of a decoded beat, and a row does what its command does. -/
theorem stepRunsDecoded : Obligations.StepRunsDecoded := by
  intro s b i rest hinp hf hd
  have hstep : step s = exec i { s with inp := rest } := step_of_decode hinp hf hd
  exact ⟨hstep, by rw [exec_issue, hstep]⟩

/-- Settles O23: a placed word is the oldest waiting beat and decodes to its row. -/
theorem placedWordRuns : Obligations.PlacedWordRuns := by
  refine ⟨fun s w i h hf => step_withFetchWord_command hf h, fun s w i h => ?_⟩
  obtain ⟨hmode, hfirst, hnode⟩ := readyForHeader_spec s
  exact ⟨hmode, hfirst, hnode, step_withFetchWord_header h⟩

/-- Settles O57: the fields of the two words read back what was put there. -/
theorem statusAndOutputWord : Obligations.StatusAndOutputWord :=
  ⟨fun s => statusByte_fields s.midcode s.corruptPad, fun o => ⟨o.kind_of_word, o.data_of_word⟩⟩

end Sys2Proof

/-! ### Bytes and bit-strings (R35) -/

namespace Sys2Proof.Machine

/-- Digits read on from the value `acc` shift it left. -/
theorem foldl_bits (p : Bits) (acc : Nat) :
    p.foldl (fun acc bit => 2 * acc + bit.toNat) acc = acc * 2 ^ p.length + bitsValue p := by
  induction p generalizing acc with
  | nil => simp [bitsValue]
  | cons bit p ih =>
    rw [bitsValue, List.foldl_cons, List.foldl_cons, ih, ih (2 * 0 + bit.toNat), List.length_cons]
    ring

/-- The first bit is the most significant. -/
theorem bitsValue_cons (bit : Bool) (p : Bits) :
    bitsValue (bit :: p) = bit.toNat * 2 ^ p.length + bitsValue p := by
  rw [bitsValue, List.foldl_cons, Nat.mul_zero, Nat.zero_add, foldl_bits]

theorem bitsValue_lt (p : Bits) : bitsValue p < 2 ^ p.length := by
  induction p with
  | nil => decide
  | cons bit p ih =>
    rw [bitsValue_cons, List.length_cons, pow_succ]
    cases bit <;> simp <;> omega

/-- Bit-strings of one length with one value are equal. -/
theorem eq_of_bitsValue_eq {p q : Bits} (hlen : p.length = q.length)
    (hval : bitsValue p = bitsValue q) : p = q := by
  induction p generalizing q with
  | nil => exact (List.length_eq_zero_iff.1 hlen.symm).symm
  | cons x p ih =>
    cases q with
    | nil => cases hlen
    | cons y q =>
      have htail : p.length = q.length := Nat.succ.inj hlen
      have hp := bitsValue_lt p
      have hq := bitsValue_lt q
      rw [bitsValue_cons, bitsValue_cons, htail] at hval
      rw [htail] at hp
      obtain ⟨rfl, hrest⟩ : x = y ∧ bitsValue p = bitsValue q := by
        cases x <;> cases y <;> simp at hval ⊢ <;> omega
      rw [ih htail hrest]

/-- The value of the low `n` bits of a word. -/
theorem bitsValue_lowBits {w : Nat} (v : BitVec w) (n : Nat) :
    bitsValue (lowBits v n) = v.toNat % 2 ^ n := by
  induction n with
  | zero => simp [lowBits, bitsValue, Nat.mod_one]
  | succ n ih =>
    rw [lowBits, bitsValue_cons, ih, lowBits_length, Nat.mod_pow_succ, ← Nat.toNat_testBit,
      BitVec.testBit_toNat, Nat.mul_comm, Nat.add_comm]

/-- `Byte(Bits(b)) = b` (R35). -/
@[simp] theorem byteOf_bitsOf (b : Byte) : byteOf (bitsOf b) = b := by
  apply BitVec.eq_of_toNat_eq
  rw [byteOf, bitsOf, bitsValue_lowBits, BitVec.toNat_ofNat, Nat.mod_mod, Nat.mod_eq_of_lt b.isLt]

/-- `Bits(Byte(p)) = p` for eight bits (R35). -/
theorem bitsOf_byteOf {p : Bits} (hlen : p.length = 8) : bitsOf (byteOf p) = p := by
  have hlt : bitsValue p < 2 ^ 8 := hlen ▸ bitsValue_lt p
  refine eq_of_bitsValue_eq ((bitsOf_length _).trans hlen.symm) ?_
  rw [bitsOf, bitsValue_lowBits, byteOf, BitVec.toNat_ofNat, Nat.mod_mod, Nat.mod_eq_of_lt hlt]

end Sys2Proof.Machine

/-! ### What a step emits (R41, R52) -/

namespace Sys2Proof.Machine

/-- A walk completes at most one symbol per bit (R89). -/
theorem decodeFrom_length_le {c : Config} {root : Byte} :
    ∀ {bits : Bits} {node : Byte} {syms : List Byte} {last : Byte},
      decodeFrom c root node bits = some (syms, last) → syms.length ≤ bits.length
  | [], _, _, _, h => by cases h; exact le_rfl
  | bit :: rest, node, _, _, h => by
    rcases hs : walkStep c node bit with _ | ⟨next, _ | sym⟩
    · simp [decodeFrom, hs] at h
    · rw [decodeFrom_cons_none hs] at h
      exact (decodeFrom_length_le h).trans (Nat.le_succ _)
    · rw [decodeFrom_cons_some hs] at h
      obtain ⟨⟨syms, last⟩, hrest, heq⟩ := Option.map_eq_some_iff.1 h
      cases heq
      exact Nat.succ_le_succ (decodeFrom_length_le hrest)

/-- A byte of the stream emits at most eight `SYM` beats and stays in its mode; or it emits at most seven,
since the faulting bit completes none, and then the `ERR` of its fault (R86). -/
theorem ByteTaken.emission {s s' : State} (hb : ByteTaken s s') :
    ∃ syms : List Byte,
      (syms.length ≤ 8 ∧ s'.mode = s.mode ∧ s'.out = s.out ++ syms.map (fun u => ⟨.sym, u⟩)) ∨
      (syms.length ≤ 7 ∧ s'.mode = .fault ∧
        s'.out = s.out ++ (syms.map (fun u => ⟨.sym, u⟩) ++ [⟨.err, errData .treeFault⟩])) := by
  obtain ⟨bits, corrupt, hlen, -, ⟨syms, last, hwalk, rfl⟩ |
    ⟨pre, bit, post, syms, node, hbits, hwalk, -, -, rfl⟩⟩ := hb
  · exact ⟨syms, .inl ⟨(decodeFrom_length_le hwalk).trans hlen, rfl, rfl⟩⟩
  · have hpre : pre.length ≤ 7 := by simp [hbits] at hlen; omega
    exact ⟨syms, .inr ⟨(decodeFrom_length_le hwalk).trans hpre, rfl, by simp⟩⟩

theorem pack_ne_nil (b : Bits) : pack b ≠ [] := List.cons_ne_nil _ _

end Sys2Proof.Machine

/-! ### Memory and emission statements settled -/

namespace Sys2Proof

open Sys2Proof.Machine

/-- Settles O8: the cases of a step, each with the beats it appends. -/
theorem emissionShape : Obligations.EmissionShape := by
  intro s s' hs
  have hnothing : s.out = s.out ++ [] := (List.append_nil _).symm
  rcases step_effect hs with ⟨-, rfl⟩ | ⟨rest, hinp, rfl⟩ | ⟨b, rest, -, he⟩
  · exact ⟨[], hnothing, .inl ⟨rfl, .inl rfl⟩⟩
  · exact ⟨[], hnothing, .inl ⟨rfl, .inr (.inr (by rw [hinp, List.head?_cons]))⟩⟩
  · cases he with
    | discarded => exact ⟨[], hnothing, .inl ⟨rfl, .inl rfl⟩⟩
    | raised c hf =>
      exact ⟨[⟨.err, errData c⟩], rfl,
        .inr (.inr (.inr (.inr ⟨hf, rfl, [], c, by decide, fun _ => rfl, rfl⟩)))⟩
    | encBegin _ hm => exact ⟨[], hnothing, .inl ⟨rfl, .inr (.inl ⟨hm, by simp⟩)⟩⟩
    | encSym => exact ⟨[], hnothing, .inl ⟨rfl, .inl rfl⟩⟩
    | encEnd _ hm =>
      exact ⟨streamBeats s, rfl, .inr (.inr (.inl ⟨hm, rfl, pack s.bitbuf, pack_ne_nil _, rfl⟩))⟩
    | decBegin r _ hm => exact ⟨[], hnothing, .inl ⟨rfl, .inr (.inl ⟨hm, by simp⟩)⟩⟩
    | decByte hm hbyte =>
      have hdec : s.mode = .dec := hm
      obtain ⟨syms, ⟨hlen, hmode, hout⟩ | ⟨hlen, hmode, hout⟩⟩ := hbyte.emission
      · exact ⟨_, hout, .inr (.inl ⟨hdec, hmode.trans hm, syms, hlen, rfl⟩)⟩
      · exact ⟨_, hout, .inr (.inr (.inr (.inr ⟨by simp [hdec], hmode, syms, .treeFault, hlen,
          fun hne => absurd hdec hne, rfl⟩)))⟩
    | decEnd _ hm hfirst =>
      rw [closeDecode_of_not_first hfirst]
      exact ⟨_, rfl, .inr (.inr (.inr (.inl ⟨hm, rfl, _, rfl⟩)))⟩

/-- Settles O52: words and bit-strings of one length have the same values, and the top bit comes first. -/
theorem bitsAndBytes : Obligations.BitsAndBytes :=
  ⟨byteOf_bitsOf, fun _ hlen => bitsOf_byteOf hlen, fun _ => ⟨rfl, rfl⟩⟩

end Sys2Proof

/-! ### The decoder of a beat, by its two fields (R50, R60, R61) -/

namespace Sys2Proof

/-- A beat is its two fields side by side. -/
theorem beatOp_append_beatArg (b : Beat) : beatOp b ++ beatArg b = b :=
  BitVec.extractLsb'_append_extractLsb'

/-- Everything the decoder can do, by `OP`. -/
theorem decode_cases (b : Beat) :
    (beatOp b = 0 ∧ decode b = .error .opZero) ∨
    (beatOp b = 1 ∧ decode b = noOperand (beatArg b) .encBegin) ∨
    (beatOp b = 2 ∧ decode b = .ok (.encSym (beatArg b))) ∨
    (beatOp b = 3 ∧ decode b = noOperand (beatArg b) .encEnd) ∨
    (beatOp b = 4 ∧ decode b = .ok (.decBegin (beatArg b))) ∨
    (beatOp b = 5 ∧ decode b = .ok (.decByte (beatArg b))) ∨
    (beatOp b = 6 ∧ decode b = noOperand (beatArg b) .decEnd) ∨
    (beatOp b = 7 ∧ decode b = .error .opSeven) := by
  have hop : ∀ op : BitVec 3, op = 0 ∨ op = 1 ∨ op = 2 ∨ op = 3 ∨ op = 4 ∨ op = 5 ∨ op = 6 ∨ op = 7 := by
    decide
  rcases hop (beatOp b) with h | h | h | h | h | h | h | h <;> simp [decode, h]

/-- A command with `ARG` 0 only: it is `i`, or the beat is illegal. -/
theorem noOperand_eq_ok_iff {arg : Byte} {i j : Instr} :
    noOperand arg i = .ok j ↔ arg = 0 ∧ i = j := by
  unfold noOperand
  split <;> simp_all

theorem noOperand_eq_error_iff {arg : Byte} {i : Instr} :
    (∃ e, noOperand arg i = .error e) ↔ arg ≠ 0 := by
  unfold noOperand
  split <;> simp_all

/-- The six commands, with the operand a beat carries. -/
def beatCommands (b : Beat) : List Instr :=
  [.encBegin, .encSym (beatArg b), .encEnd, .decBegin (beatArg b), .decByte (beatArg b), .decEnd]

theorem beatCommands_nodup (b : Beat) : (beatCommands b).Nodup := by simp [beatCommands]

/-- What a beat decodes to is one of the six commands, its operand the beat's `ARG`. -/
theorem mem_beatCommands_of_decode {b : Beat} {i : Instr} (h : decode b = .ok i) :
    i ∈ beatCommands b := by
  rcases decode_cases b with ⟨-, hd⟩ | ⟨-, hd⟩ | ⟨-, hd⟩ | ⟨-, hd⟩ | ⟨-, hd⟩ | ⟨-, hd⟩ | ⟨-, hd⟩ |
    ⟨-, hd⟩ <;> simp [hd, noOperand_eq_ok_iff] at h <;> simp [beatCommands, h]

/-- Matching a row of format CMD, field by field: the mask and the match of R60 are each an `OP` and an `ARG`
part. -/
theorem Row.matches_beat_iff {r : Row} {maskOp op : BitVec 3} {maskArg arg : Byte} (b : Beat)
    (hmask : r.mask = (cmdBeat maskOp maskArg).toNat) (hpattern : r.pattern = (cmdBeat op arg).toNat) :
    r.matches b.toNat = true ↔ beatOp b &&& maskOp = op ∧ beatArg b &&& maskArg = arg := by
  have hand : b &&& cmdBeat maskOp maskArg = cmdBeat (beatOp b &&& maskOp) (beatArg b &&& maskArg) := by
    rw [cmdBeat, cmdBeat, ← BitVec.and_append, beatOp_append_beatArg]
  rw [Row.matches, beq_iff_eq, hmask, hpattern, ← BitVec.toNat_and, BitVec.toNat_inj, hand]
  constructor
  · intro h
    have hop := congrArg beatOp h
    have harg := congrArg beatArg h
    simpa using And.intro hop harg
  · rintro ⟨rfl, rfl⟩; rfl

/-- A row whose command has an operand fixes `OP` only. -/
theorem Row.matches_op_iff {r : Row} {op : BitVec 3} (b : Beat) (hmask : r.mask = 0x700)
    (hpattern : r.pattern = (cmdBeat op 0).toNat) : r.matches b.toNat = true ↔ beatOp b = op := by
  have h := r.matches_beat_iff (maskOp := .allOnes 3) (maskArg := 0) b hmask hpattern
  rw [BitVec.and_allOnes] at h
  simpa using h

/-- A row whose command has no operand fixes the whole beat. -/
theorem Row.matches_op_arg_iff {r : Row} {op : BitVec 3} (b : Beat) (hmask : r.mask = 0x7FF)
    (hpattern : r.pattern = (cmdBeat op 0).toNat) :
    r.matches b.toNat = true ↔ beatOp b = op ∧ beatArg b = 0 := by
  have h := r.matches_beat_iff (maskOp := .allOnes 3) (maskArg := .allOnes 8) b hmask hpattern
  rwa [BitVec.and_allOnes, BitVec.and_allOnes] at h

/-- Which fields decode to which command (R60). -/
theorem decode_eq_ok_iff_fields (b : Beat) :
    (decode b = .ok .encBegin ↔ beatOp b = 1 ∧ beatArg b = 0) ∧
    (decode b = .ok (.encSym (beatArg b)) ↔ beatOp b = 2) ∧
    (decode b = .ok .encEnd ↔ beatOp b = 3 ∧ beatArg b = 0) ∧
    (decode b = .ok (.decBegin (beatArg b)) ↔ beatOp b = 4) ∧
    (decode b = .ok (.decByte (beatArg b)) ↔ beatOp b = 5) ∧
    (decode b = .ok .decEnd ↔ beatOp b = 6 ∧ beatArg b = 0) := by
  rcases decode_cases b with ⟨hop, hd⟩ | ⟨hop, hd⟩ | ⟨hop, hd⟩ | ⟨hop, hd⟩ | ⟨hop, hd⟩ | ⟨hop, hd⟩ |
    ⟨hop, hd⟩ | ⟨hop, hd⟩ <;> simp [hop, hd, noOperand_eq_ok_iff]

/-- A beat decodes to a command exactly when it matches the command's row (R60). -/
theorem decode_eq_ok_iff_matches {b : Beat} {i : Instr} (hi : i ∈ beatCommands b) :
    decode b = .ok i ↔ i.row.matches b.toNat = true := by
  obtain ⟨hencBegin, hencSym, hencEnd, hdecBegin, hdecByte, hdecEnd⟩ := decode_eq_ok_iff_fields b
  simp only [beatCommands, List.mem_cons, List.not_mem_nil, or_false] at hi
  rcases hi with rfl | rfl | rfl | rfl | rfl | rfl
  · exact hencBegin.trans (Row.matches_op_arg_iff b rfl rfl).symm
  · exact hencSym.trans (Row.matches_op_iff b rfl rfl).symm
  · exact hencEnd.trans (Row.matches_op_arg_iff b rfl rfl).symm
  · exact hdecBegin.trans (Row.matches_op_iff b rfl rfl).symm
  · exact hdecByte.trans (Row.matches_op_iff b rfl rfl).symm
  · exact hdecEnd.trans (Row.matches_op_arg_iff b rfl rfl).symm

/-- A beat is illegal exactly when it decodes to none of the six commands. -/
theorem decode_eq_error_iff_forall_ne (b : Beat) :
    (∃ e, decode b = .error e) ↔ ∀ i ∈ beatCommands b, decode b ≠ .ok i := by
  cases hd : decode b with
  | error e => simp
  | ok j =>
    simp only [reduceCtorEq, exists_false, false_iff, not_forall]
    exact ⟨j, mem_beatCommands_of_decode hd, fun hne => hne rfl⟩

/-- The six rows are disjoint: the decoder answers one command at most. -/
theorem countP_matches_le_one (b : Beat) :
    (beatCommands b).countP (fun i => i.row.matches b.toNat) ≤ 1 := by
  cases hd : decode b with
  | error e =>
    have hnone := (decode_eq_error_iff_forall_ne b).1 ⟨e, hd⟩
    rw [List.countP_eq_zero.2 fun i hi => mt (decode_eq_ok_iff_matches hi).2 (hnone i hi)]
    exact Nat.zero_le 1
  | ok j =>
    have heq : ∀ i ∈ beatCommands b, i.row.matches b.toNat = true ↔ (i == j) = true := by
      intro i hi
      rw [← decode_eq_ok_iff_matches hi, hd, Except.ok.injEq, beq_iff_eq, eq_comm]
    rw [List.countP_congr heq]
    exact List.nodup_iff_count_le_one.1 (beatCommands_nodup b) j

/-- The illegal beats, by field (R61). -/
theorem decode_eq_error_iff_fields (b : Beat) :
    (∃ e, decode b = .error e) ↔
      (beatOp b = 0b000 ∨ beatOp b = 0b111 ∨
        ((beatOp b = 0b001 ∨ beatOp b = 0b011 ∨ beatOp b = 0b110) ∧ beatArg b ≠ 0)) := by
  rcases decode_cases b with ⟨hop, hd⟩ | ⟨hop, hd⟩ | ⟨hop, hd⟩ | ⟨hop, hd⟩ | ⟨hop, hd⟩ | ⟨hop, hd⟩ |
    ⟨hop, hd⟩ | ⟨hop, hd⟩ <;> simp [hop, hd, noOperand_eq_error_iff]

/-- The beat numbered `w` is a command. -/
def isCommandNumber (w : Nat) : Bool :=
  match decode (BitVec.ofNat 11 w) with
  | .ok _ => true
  | .error _ => false

theorem isCommandNumber_iff_not_error (w : Nat) :
    isCommandNumber w = true ↔ ¬ ∃ e, decode (BitVec.ofNat 11 w) = .error e := by
  unfold isCommandNumber
  cases decode (BitVec.ofNat 11 w) <;> simp

/-- The commands among the 256 numbers of one `OP`: all of them where the command has an operand, `ARG` 0 only
where it has none, none where `OP` is no command (R60, R61). -/
theorem isCommandNumber_iff {op j : Nat} (hop : op < 8) (hj : j < 256) :
    isCommandNumber (256 * op + j) = true ↔
      (op = 2 ∨ op = 4 ∨ op = 5) ∨ (op = 1 ∨ op = 3 ∨ op = 6) ∧ j = 0 := by
  have hopNat : (beatOp (BitVec.ofNat 11 (256 * op + j))).toNat = op := by
    simp [beatOp, Nat.shiftRight_eq_div_pow]; omega
  have hargNat : (beatArg (BitVec.ofNat 11 (256 * op + j))).toNat = j := by
    simp [beatArg]; omega
  rw [isCommandNumber_iff_not_error, decode_eq_error_iff_fields]
  simp only [Ne, ← BitVec.toNat_inj, hopNat, hargNat, BitVec.reduceToNat]
  omega

/-- How many of the 256 beats of one `OP` are commands. -/
def commandCount (op : Nat) : Nat :=
  if op = 2 ∨ op = 4 ∨ op = 5 then 256 else if op = 1 ∨ op = 3 ∨ op = 6 then 1 else 0

theorem count_isCommandNumber {op : Nat} (hop : op < 8) :
    Nat.count (fun j => isCommandNumber (256 * op + j) = true) 256 = commandCount op := by
  unfold commandCount
  split
  next hall => exact Nat.count_of_forall fun _ hj => (isCommandNumber_iff hop hj).2 (.inl hall)
  next hall =>
    split
    next hzero =>
      have hrest : Nat.count (fun k => isCommandNumber (256 * op + (k + 1)) = true) 255 = 0 :=
        Nat.count_of_forall_not fun k hk => by
          rw [isCommandNumber_iff hop (by omega)]; omega
      rw [Nat.count_succ', hrest, if_pos ((isCommandNumber_iff hop (by omega)).2 (.inr ⟨hzero, rfl⟩))]
    next hzero =>
      refine Nat.count_of_forall_not fun j hj hc => ?_
      rcases (isCommandNumber_iff hop hj).1 hc with h | ⟨h, -⟩
      · exact hall h
      · exact hzero h

/-- Counting one `OP` after the other. -/
theorem count_isCommandNumber_mul {n : Nat} (hn : n ≤ 8) :
    Nat.count (fun w => isCommandNumber w = true) (256 * n) = ((List.range n).map commandCount).sum := by
  induction n with
  | zero => rfl
  | succ n ih =>
    rw [Nat.mul_succ, Nat.count_add, ih (by omega), count_isCommandNumber (by omega), List.range_succ,
      List.map_append, List.sum_append]
    rfl

/-- 771 of the 2048 beats are commands (R60). -/
theorem countP_isCommandNumber : (List.range 2048).countP isCommandNumber = 771 := by
  have hcount := count_isCommandNumber_mul le_rfl
  have hsum : ((List.range 8).map commandCount).sum = 771 := by decide
  simpa [Nat.count, hsum] using hcount

end Sys2Proof

/-! ### The words, the decoder and the header forms settled -/

namespace Sys2Proof

open Sys2Proof.Machine

/-- Settles O18: the six rows each fix `OP`, and `ARG` where there is no operand, as the decoder does. -/
theorem decodeByMatchAndMask : Obligations.DecodeByMatchAndMask := by
  refine ⟨fun b i hi => decode_eq_ok_iff_matches hi, countP_matches_le_one, fun b => ?_, countP_isCommandNumber⟩
  rw [decode_eq_error_iff_forall_ne, List.all_eq_true]
  exact forall₂_congr fun i hi => by
    rw [Bool.not_eq_true', ← Bool.not_eq_true, Ne, decode_eq_ok_iff_matches hi]

/-- Settles O19: the illegal `OP` and `ARG` values, and the step of an illegal beat. -/
theorem illegalBeats : Obligations.IllegalBeats :=
  ⟨decode_eq_error_iff_fields, fun _ _ _ _ hinp hd =>
    ⟨fun hf => step_of_illegal hinp hf hd, fun hf => step_of_fault hinp hf⟩⟩

/-- Settles O21: the table of the nine forms agrees with pad detection. -/
theorem headerRowIsDecByte : Obligations.HeaderRowIsDecByte := exec_headerForm

end Sys2Proof

/-! ### A header row as the first byte of a session (R56, R86, R87) -/

namespace Sys2Proof.Machine

section FirstByte

variable {s : State} (hmode : s.mode = .dec) (hfirst : s.first = true)
include hmode hfirst

/-- The first byte of a session yields the payload its header leaves, and the corrupt mark. -/
theorem inMode_takeByte_of_first {all payload : Bits} {corrupt : Bool} {syms : List Byte} {last : Byte}
    (hwalk : decodeFrom s.cfg s.root s.node payload = some (syms, last)) :
    inMode .dec (takeByte all (payload, corrupt)) s = .next ((s.received corrupt).walked syms last) := by
  have hdone : walkBits payload (s.received corrupt) = .next ((s.received corrupt).walked syms last) :=
    walkBits_of_decodeFrom hwalk
  rw [inMode_of_eq hmode (by decide), takeByte_eq, if_pos hfirst, hdone]
  rfl

/-- A padded row strips its header and walks its payload field. -/
theorem takePadded_of_first {n : Nat} {payload : Bits} {syms : List Byte} {last : Byte}
    (hwalk : decodeFrom s.cfg s.root s.node payload = some (syms, last)) :
    takePadded n payload s = .next ((s.received false).walked syms last) :=
  inMode_takeByte_of_first hmode hfirst hwalk

/-- `HDR_PAD8` has no payload bit: it clears `FIRST` only. -/
theorem execHdrPad8_of_first : execHdrPad8 s = .next { s with first := false } := by
  have h := takePadded_of_first hmode hfirst (n := 8) (payload := []) rfl
  rw [execHdrPad8, h, show s.node = (s.received false).node from rfl, walked_nil, State.received,
    Bool.or_false]

/-- `HDR_CORRUPT` is stripped whole: it clears `FIRST` and sets `CORRUPT_PAD`. -/
theorem execHdrCorrupt_of_first :
    execHdrCorrupt s = .next { s with first := false, corruptPad := true } := by
  have h := inMode_takeByte_of_first hmode hfirst (all := .replicate 8 false) (payload := [])
    (corrupt := true) rfl
  rw [execHdrCorrupt, h, show s.node = (s.received true).node from rfl, walked_nil, State.received,
    Bool.or_true]

end FirstByte

/-! ### The bits of a code and the fields of the ROM words (R53, R54, R58) -/

/-- The `i`-th of the low `n` bits of a word, most significant first. -/
theorem lowBits_getElem? {w : Nat} (v : BitVec w) {n i : Nat} (hi : i < n) :
    (lowBits v n)[i]? = some (v.getLsbD (n - 1 - i)) := by
  induction n generalizing i with
  | zero => cases hi
  | succ n ih =>
    cases i with
    | zero => rfl
    | succ i =>
      rw [lowBits, List.getElem?_cons_succ, ih (by omega)]
      congr 2
      omega

end Sys2Proof.Machine

namespace Sys2Proof

/-- The fields of a node word {TAG, A, B} (R54). -/
theorem nodeFields (tag : Bool) (a b : Byte) :
    nodeTag (BitVec.ofBool tag ++ a ++ b) = tag ∧ nodeA (BitVec.ofBool tag ++ a ++ b) = a ∧
    nodeB (BitVec.ofBool tag ++ a ++ b) = b := by
  refine ⟨?_, ?_, BitVec.extractLsb'_append_eq_right⟩
  · rw [nodeTag, BitVec.getLsbD_append, BitVec.getLsbD_append]
    simp
  · exact (BitVec.extractLsb'_append_eq_of_le le_rfl).trans BitVec.extractLsb'_append_eq_right

/-- An entry with `LEN` of `LEN_W` bits above `CODE` of `MAXLEN` bits fits the cell (R53). -/
theorem Config.entry_lt {c : Config} {len code : Nat} (hk : 2 ≤ c.k) (hk' : c.k ≤ 128)
    (hlen : len < 2 ^ c.lenW) (hcode : code < 2 ^ c.maxLen) : len * 2 ^ c.maxLen + code < 2 ^ 134 := by
  have hmax : c.maxLen ≤ 127 := by rw [Config.maxLen]; omega
  have hwidth : c.lenW ≤ 7 := (c.maxLen_lt_two_pow_iff hk 7).1 (by omega)
  calc len * 2 ^ c.maxLen + code < (len + 1) * 2 ^ c.maxLen := by rw [Nat.succ_mul]; omega
    _ ≤ 2 ^ c.lenW * 2 ^ c.maxLen := Nat.mul_le_mul_right _ hlen
    _ = 2 ^ (c.lenW + c.maxLen) := (pow_add _ _ _).symm
    _ ≤ 2 ^ 134 := Nat.pow_le_pow_right (by decide) (by omega)

/-- The fields of a code entry whose `LEN` stands above its `MAXLEN` code bits (R53). -/
theorem Config.entry_fields {c : Config} {len code : Nat} (hk : 2 ≤ c.k) (hk' : c.k ≤ 128)
    (hlen : len < 2 ^ c.lenW) (hcode : code < 2 ^ c.maxLen) :
    c.entryLen (BitVec.ofNat 134 (len * 2 ^ c.maxLen + code)) = len ∧
    ∀ i, i < c.maxLen →
      (BitVec.ofNat 134 (len * 2 ^ c.maxLen + code)).getLsbD i = code.testBit i := by
  have hcell : (BitVec.ofNat 134 (len * 2 ^ c.maxLen + code)).toNat = len * 2 ^ c.maxLen + code := by
    rw [BitVec.toNat_ofNat, Nat.mod_eq_of_lt (Config.entry_lt hk hk' hlen hcode)]
  constructor
  · rw [Config.entryLen, hcell, Nat.shiftRight_eq_div_pow, Nat.mul_comm, Nat.mul_add_div (by positivity),
      Nat.div_eq_of_lt hcode, Nat.add_zero, Nat.mod_eq_of_lt hlen]
  · intro i hi
    rw [← BitVec.testBit_toNat, hcell, Nat.mul_comm, Nat.testBit_two_pow_mul_add _ hcode, if_pos hi]

/-- For `K` = 128 the concatenation {LEN, CODE} is that entry. -/
theorem append_eq_entry (len : BitVec 7) (code : BitVec 127) :
    len ++ code = BitVec.ofNat 134 (len.toNat * 2 ^ 127 + code.toNat) := by
  rw [← Nat.shiftLeft_eq, Nat.shiftLeft_add_eq_or_of_lt code.isLt, ← BitVec.toNat_append,
    BitVec.ofNat_toNat, BitVec.setWidth_eq]

end Sys2Proof

/-! ### Encoding statements of the header forms and the ROM words settled -/

namespace Sys2Proof

open Sys2Proof.Machine

/-- Settles O42: the first byte of a session walks the payload field of its row. -/
theorem headerForms : Obligations.HeaderForms := fun _ hmode hfirst =>
  ⟨fun _ _ _ h => takePadded_of_first hmode hfirst h,
   fun _ _ _ h => takePadded_of_first hmode hfirst h,
   fun _ _ _ h => takePadded_of_first hmode hfirst h,
   fun _ _ _ h => takePadded_of_first hmode hfirst h,
   fun _ _ _ h => takePadded_of_first hmode hfirst h,
   fun _ _ _ h => takePadded_of_first hmode hfirst h,
   fun _ _ _ h => takePadded_of_first hmode hfirst h,
   execHdrPad8_of_first hmode hfirst, execHdrCorrupt_of_first hmode hfirst⟩

/-- Settles O15, each word by running the decoder on it. -/
theorem decodeWords : Obligations.DecodeWords :=
  ⟨rfl, rfl, rfl, rfl, rfl, rfl, rfl, rfl, rfl, rfl, rfl, rfl⟩

/-- Settles O20, on each of the 256 bytes. -/
theorem headerFormsPartition : Obligations.HeaderFormsPartition := by
  unfold Obligations.HeaderFormsPartition
  decide

/-- Settles O53: `CodeBits` takes the low bits from the top down. -/
theorem codeBitsOfEntry : Obligations.CodeBits :=
  fun e len => ⟨lowBits_length e len, fun _ hi => lowBits_getElem? e hi⟩

/-- Settles O54: the two branches of `child`. -/
theorem childOfNode : Obligations.Child := fun _ => ⟨rfl, rfl⟩

/-- Settles O55: the fields of a node word, and of an entry with `LEN` above its code bits. -/
theorem romFields : Obligations.RomFields := by
  refine ⟨nodeFields, fun c len code => Config.entry_fields, fun c len code hk => ?_⟩
  have hmax : c.maxLen = 127 := by rw [Config.maxLen, hk]
  have hwidth : c.lenW = 7 := by rw [Config.lenW, hk]; decide
  have h := Config.entry_fields (c := c) (len := len.toNat) (code := code.toNat) (by omega) (by omega)
    (by rw [hwidth]; exact len.isLt) (by rw [hmax]; exact code.isLt)
  rw [hmax, ← append_eq_entry] at h
  exact h

end Sys2Proof

/-! ### The text of a command (R64) -/

namespace Sys2Proof.Machine

/-- A character that stands for itself in a line: it neither separates nor begins a comment or a quotation. -/
def isPlain (c : Char) : Bool := !isBlank c && c != ';' && c != '\''

theorem isPlain_iff {c : Char} : isPlain c = true ↔ isBlank c = false ∧ c ≠ ';' ∧ c ≠ '\'' := by
  simp [isPlain, and_assoc]

theorem isBlank_of_isPlain {c : Char} (h : isPlain c = true) : isBlank c = false := (isPlain_iff.1 h).1

/-- Without a comment and a quotation the line stays as it is. -/
theorem stripComment_eq_self {text : List Char} (h : ∀ c ∈ text, c ≠ ';' ∧ c ≠ '\'') :
    stripComment text = text := by
  induction text with
  | nil => rfl
  | cons c rest ih =>
    obtain ⟨hsemi, hquote⟩ := h c List.mem_cons_self
    have hrest := ih fun d hd => h d (List.mem_cons_of_mem c hd)
    simp [stripComment, hsemi, hquote, hrest]

/-- A text that begins and ends with a plain character has no blanks to trim. -/
theorem trimBlanks_eq_self {text : List Char} (hhead : ∀ c ∈ text.head?, isBlank c = false)
    (hlast : ∀ c ∈ text.getLast?, isBlank c = false) : trimBlanks text = text := by
  have hdrop : ∀ l : List Char, (∀ c ∈ l.head?, isBlank c = false) → l.dropWhile isBlank = l := by
    intro l hl
    cases l with
    | nil => rfl
    | cons c rest => exact List.dropWhile_cons_of_neg (by simp [hl c rfl])
  rw [trimBlanks, hdrop text hhead, hdrop text.reverse (by simpa using hlast), List.reverse_reverse]

theorem trimBlanks_of_plain {text : List Char} (h : ∀ c ∈ text, isPlain c = true) :
    trimBlanks text = text :=
  trimBlanks_eq_self (fun c hc => isBlank_of_isPlain (h c (List.mem_of_mem_head? hc)))
    (fun c hc => isBlank_of_isPlain (h c (List.mem_of_mem_getLast? hc)))

/-- A mnemonic, a blank and an operand of plain characters are read as the command they name. -/
theorem parseLine_operand {mnemonic operand : List Char} (hmne : mnemonic ≠ []) (hone : operand ≠ [])
    (hm : ∀ c ∈ mnemonic, isPlain c = true) (ho : ∀ c ∈ operand, isPlain c = true) :
    parseLine (mnemonic ++ ' ' :: operand) = (parseCommand mnemonic operand).map some := by
  have hstrip : stripComment (mnemonic ++ ' ' :: operand) = mnemonic ++ ' ' :: operand := by
    refine stripComment_eq_self fun c hc => ?_
    rcases List.mem_append.1 hc with hc | hc
    · exact (isPlain_iff.1 (hm c hc)).2
    · rcases List.mem_cons.1 hc with rfl | hc
      · decide
      · exact (isPlain_iff.1 (ho c hc)).2
  have htrim : trimBlanks (mnemonic ++ ' ' :: operand) = mnemonic ++ ' ' :: operand := by
    refine trimBlanks_eq_self (fun c hc => ?_) (fun c hc => ?_)
    · rw [List.head?_append_of_ne_nil _ hmne] at hc
      exact isBlank_of_isPlain (hm c (List.mem_of_mem_head? hc))
    · rw [List.getLast?_append_cons, List.getLast?_cons_of_ne_nil hone] at hc
      exact isBlank_of_isPlain (ho c (List.mem_of_mem_getLast? hc))
  have hword : ∀ c ∈ mnemonic, (!isBlank c) = true := fun c hc => by simp [isBlank_of_isPlain (hm c hc)]
  have htake : (mnemonic ++ ' ' :: operand).takeWhile (fun c => !isBlank c) = mnemonic := by
    rw [List.takeWhile_append_of_pos hword, List.takeWhile_cons_of_neg (by decide), List.append_nil]
  have hdrop : (mnemonic ++ ' ' :: operand).dropWhile (fun c => !isBlank c) = ' ' :: operand := by
    rw [List.dropWhile_append_of_pos hword, List.dropWhile_cons_of_neg (by decide)]
  have hoperand : trimBlanks (' ' :: operand) = operand := trimBlanks_of_plain ho
  simp [parseLine, hstrip, htrim, htake, hdrop, hoperand]

/-- Each of the sixteen digits is a plain character with its value. -/
theorem hexDigit_spec : ∀ n : Fin 16,
    isPlain (hexDigit n) = true ∧ digitValue (hexDigit n) = some n.val := by decide

/-- A byte written in hexadecimal is plain text. -/
theorem hexText_plain (b : Byte) : ∀ c ∈ hexText b, isPlain c = true := by
  have hdigit : ∀ n, n < 16 → isPlain (hexDigit n) = true := fun n hn => (hexDigit_spec ⟨n, hn⟩).1
  have hhigh := hdigit (b.toNat / 16) (by omega)
  have hlow := hdigit (b.toNat % 16) (by omega)
  simp only [hexText, List.forall_mem_cons]
  exact ⟨by decide, by decide, hhigh, hlow, by simp⟩

/-- Two hexadecimal digits are read as the byte they stand for. -/
theorem parseByte_hexText (b : Byte) : parseByte (hexText b) = some b := by
  have hvalue : ∀ n, n < 16 → digitValue (hexDigit n) = some n := fun n hn => (hexDigit_spec ⟨n, hn⟩).2
  have hhigh := hvalue (b.toNat / 16) (by omega)
  have hlow := hvalue (b.toNat % 16) (by omega)
  have hnumber : parseNumber (hexText b) = some b.toNat := by
    simp only [hexText, parseNumber, digitsValue, hhigh, hlow]
    simp [show b.toNat / 16 < 16 by omega, show b.toNat % 16 < 16 by omega]
    omega
  simp [parseByte, hnumber, b.isLt]

/-- A hexadecimal number begins with `0`: it is no quoted character. -/
theorem parseSymbol_hexText (b : Byte) : parseSymbol (hexText b) = some b := by
  have hnumber : parseSymbol (hexText b) = parseByte (hexText b) := by simp [parseSymbol, hexText]
  rw [hnumber, parseByte_hexText]

theorem parseCommand_encSym (operand : List Char) :
    parseCommand ['E', 'N', 'C', '_', 'S', 'Y', 'M'] operand = (parseSymbol operand).map .encSym := rfl

theorem parseCommand_decBegin (operand : List Char) :
    parseCommand ['D', 'E', 'C', '_', 'B', 'E', 'G', 'I', 'N'] operand =
      (parseByte operand).map .decBegin := rfl

theorem parseCommand_decByte (operand : List Char) :
    parseCommand ['D', 'E', 'C', '_', 'B', 'Y', 'T', 'E'] operand =
      (parseByte operand).map .decByte := rfl

/-- A line with a hexadecimal operand, for any mnemonic of plain characters. -/
theorem parseLine_hexText {mnemonic : List Char} {b : Byte} {i : Instr} (hmne : mnemonic ≠ [])
    (hm : mnemonic.all isPlain = true) (hcommand : parseCommand mnemonic (hexText b) = some i) :
    parseLine (mnemonic ++ ' ' :: hexText b) = some (some i) := by
  have hone : hexText b ≠ [] := List.cons_ne_nil _ _
  rw [parseLine_operand hmne hone (List.all_eq_true.1 hm) (hexText_plain b), hcommand, Option.map_some]

end Sys2Proof.Machine

/-! ### The text of a command settled -/

namespace Sys2Proof

open Sys2Proof.Machine

/-- Settles O58: a mnemonic alone is read by running the reader on it, one with an operand digit by digit. -/
theorem textReadBack : Obligations.TextReadBack := by
  intro i text h
  cases i with
  | encBegin | encEnd | decEnd => cases h; decide
  | encSym s =>
    cases h
    exact parseLine_hexText (mnemonic := ['E', 'N', 'C', '_', 'S', 'Y', 'M']) (by decide) (by decide)
      (by rw [parseCommand_encSym, parseSymbol_hexText, Option.map_some])
  | decBegin r =>
    cases h
    exact parseLine_hexText (mnemonic := ['D', 'E', 'C', '_', 'B', 'E', 'G', 'I', 'N']) (by decide) (by decide)
      (by rw [parseCommand_decBegin, parseByte_hexText, Option.map_some])
  | decByte b =>
    cases h
    exact parseLine_hexText (mnemonic := ['D', 'E', 'C', '_', 'B', 'Y', 'T', 'E']) (by decide) (by decide)
      (by rw [parseCommand_decByte, parseByte_hexText, Option.map_some])
  | _ => cases h

end Sys2Proof

/-! ### The format of what is emitted (R52, R62) -/

namespace Sys2Proof.Machine

/-- The `ERR` data of a cause the block raises is one of its seven codes. -/
theorem inFormat_err {c : Cause} : c ∈ blockCauses → OutBeat.inFormat ⟨.err, errData c⟩ = true := by
  cases c <;> decide

/-- The `DONE` data is a `STATUS`, whose upper bits are zero (R20). -/
theorem inFormat_done (midcode corruptPad : Bool) :
    OutBeat.inFormat ⟨.done, statusByte midcode corruptPad⟩ = true := by
  obtain ⟨-, -, hlt⟩ := statusByte_fields midcode corruptPad
  simpa [OutBeat.inFormat] using hlt

theorem inFormat_of_mem_map {kind : Kind} (hkind : kind = .byte ∨ kind = .sym) {data : List Byte} :
    ∀ o ∈ data.map (OutBeat.mk kind), o.inFormat = true := by
  intro o ho
  obtain ⟨d, -, rfl⟩ := List.mem_map.1 ho
  rcases hkind with rfl | rfl <;> rfl

theorem inFormat_streamBeats (s : State) : ∀ o ∈ streamBeats s, o.inFormat = true := by
  rw [streamBeats, List.forall_mem_append, List.forall_mem_singleton]
  exact ⟨inFormat_of_mem_map (.inl rfl), inFormat_done _ _⟩

/-- The beats a byte of the stream emits are in format. -/
theorem ByteTaken.inFormat {s s' : State} (hb : ByteTaken s s') :
    ∃ beats, s'.out = s.out ++ beats ∧ ∀ o ∈ beats, o.inFormat = true := by
  obtain ⟨syms, ⟨-, -, hout⟩ | ⟨-, -, hout⟩⟩ := hb.emission
  · exact ⟨_, hout, inFormat_of_mem_map (.inr rfl)⟩
  · refine ⟨_, hout, List.forall_mem_append.2 ⟨inFormat_of_mem_map (.inr rfl), ?_⟩⟩
    rw [List.forall_mem_singleton]
    exact inFormat_err (by decide)

/-- What the effect of a beat emits is in format. -/
theorem BeatEffect.inFormat {b : Beat} {s s' : State} (he : BeatEffect b s s') :
    ∃ beats, s'.out = s.out ++ beats ∧ ∀ o ∈ beats, o.inFormat = true := by
  cases he with
  | raised c _ hc => exact ⟨[⟨.err, errData c⟩], rfl, by simpa using inFormat_err hc⟩
  | encEnd => exact ⟨streamBeats s, rfl, inFormat_streamBeats s⟩
  | decByte _ hb => exact hb.inFormat
  | decEnd _ _ hfirst =>
    rw [closeDecode_of_not_first hfirst]
    exact ⟨_, rfl, by simpa using inFormat_done _ _⟩
  | discarded | encBegin | encSym | decBegin => exact ⟨[], (List.append_nil _).symm, by simp⟩

/-- Every step keeps the output format. -/
theorem step_inFormat {s s' : State} (hs : step s = .next s') (h : ∀ o ∈ s.out, o.inFormat = true) :
    ∀ o ∈ s'.out, o.inFormat = true := by
  rcases step_effect hs with ⟨-, rfl⟩ | ⟨rest, -, rfl⟩ | ⟨b, rest, -, he⟩
  · exact h
  · exact h
  · obtain ⟨beats, hout, hbeats⟩ := he.inFormat
    rw [hout]
    exact List.forall_mem_append.2 ⟨h, hbeats⟩

/-! ### Sessions (R152): one step of an open session -/

/-- A session is open: the mode is `ENC` or `DEC`. -/
def State.InSession (s : State) : Prop := s.mode = .enc ∨ s.mode = .dec

theorem State.InSession.mode_ne_idle {s : State} (hopen : s.InSession) : s.mode ≠ .idle := by
  rcases hopen with h | h <;> simp [h]

/-- The kind of the data beats of a session that succeeds (R52). -/
def dataKind : Mode → Kind
  | .enc => .byte
  | .idle | .dec | .fault => .sym

/-- The data a session has emitted before its end: none in mode `ENC`, else `SYM` beats (R79, R86). -/
structure DataSoFar (m : Mode) (beats : List OutBeat) : Prop where
  none_of_enc : m = .enc → beats = []
  kind_sym : ∀ o ∈ beats, o.kind = .sym

theorem dataSoFar_nil (m : Mode) : DataSoFar m [] := ⟨fun _ => rfl, by simp⟩

theorem dataSoFar_syms {m : Mode} {syms : List Byte} (h : m = .enc → syms = []) :
    DataSoFar m (syms.map (OutBeat.mk .sym)) :=
  ⟨fun hm => by rw [h hm, List.map_nil], by simp⟩

theorem DataSoFar.append {m : Mode} {p q : List OutBeat} (hp : DataSoFar m p) (hq : DataSoFar m q) :
    DataSoFar m (p ++ q) :=
  ⟨fun hm => by rw [hp.none_of_enc hm, hq.none_of_enc hm]; rfl, List.forall_mem_append.2 ⟨hp.kind_sym, hq.kind_sym⟩⟩

/-- What stands before the end of a session has the kind of its data. -/
theorem DataSoFar.kind {m : Mode} {beats : List OutBeat} (h : DataSoFar m beats) :
    ∀ o ∈ beats, o.kind = dataKind m := by
  intro o ho
  cases m with
  | enc => rw [h.none_of_enc rfl] at ho; cases ho
  | idle | dec | fault => exact h.kind_sym o ho

theorem dataKind_eq (m : Mode) : dataKind m = .byte ∨ dataKind m = .sym := by cases m <;> simp [dataKind]

/-- What a step other than `rst` does to an open session: it goes on in its mode, or it ends with `DONE` in
mode `IDLE` or with `ERR` in mode `FAULT`; each with the events that show it (R79, R86, R152). -/
inductive SessionStep (s s' : State) : Prop where
  | goesOn (beats : List OutBeat) : s'.mode = s.mode → DataSoFar s.mode beats →
      stepEvents s = beats.map .emitted ++ [] → SessionStep s s'
  | succeeds (beats : List OutBeat) (d : Byte) : s'.mode = .idle →
      (∀ o ∈ beats, o.kind = dataKind s.mode) →
      stepEvents s = beats.map .emitted ++ [.emitted ⟨.done, d⟩] → SessionStep s s'
  | fails (beats : List OutBeat) (d : Byte) : s'.mode = .fault → DataSoFar s.mode beats →
      stepEvents s = beats.map .emitted ++ [.emitted ⟨.err, d⟩] → SessionStep s s'

/-- In an open session no session begins: the events of a step other than `rst` are the beats emitted. -/
theorem stepEvents_of_inSession {s s' : State} {beats : List OutBeat} (hopen : s.InSession)
    (hs : step s = .next s') (hrst : s.inp.head? ≠ some .rst) (hout : s'.out = s.out ++ beats) :
    stepEvents s = beats.map .emitted := by
  cases hinp : s.inp with
  | nil =>
    rw [step_of_nil hinp] at hs
    cases hs
    rw [stepEvents_of_nil hinp, List.self_eq_append_right.1 hout, List.map_nil]
  | cons m rest =>
    cases m with
    | rst => simp [hinp] at hrst
    | beat b =>
      have hnot : ¬ opensSession b s = true := fun h => hopen.mode_ne_idle (opensSession_iff.1 h).1
      rw [stepEvents_of_beat hinp hs hout, if_neg hnot, List.nil_append]

/-- The shape of what a step emits, read as the events of the session. -/
theorem sessionStep_of_step {s s' : State} (hopen : s.InSession) (hs : step s = .next s')
    (hrst : s.inp.head? ≠ some .rst) : SessionStep s s' := by
  obtain ⟨beats, hout, hshape⟩ := emissionShape s s' hs
  have hevents := stepEvents_of_inSession hopen hs hrst hout
  rcases hshape with ⟨rfl, hmode | ⟨hm, -⟩ | hm⟩ | ⟨hdec, hdec', syms, -, rfl⟩ |
    ⟨henc, hmode, bytes, -, rfl⟩ | ⟨hdec, hmode, d, rfl⟩ | ⟨-, hmode, syms, c, -, hsyms, rfl⟩
  · exact .goesOn [] hmode (dataSoFar_nil _) hevents
  · exact absurd hm hopen.mode_ne_idle
  · exact absurd hm hrst
  · refine .goesOn _ (hdec'.trans hdec.symm) (dataSoFar_syms (syms := syms) (by simp [hdec])) ?_
    rw [hevents, List.append_nil]
  · have hkind : ∀ o ∈ bytes.map (OutBeat.mk .byte), o.kind = dataKind s.mode := by simp [henc, dataKind]
    exact .succeeds _ _ hmode hkind (hevents.trans List.map_append)
  · exact .succeeds [] d hmode (by simp) hevents
  · have hdata : DataSoFar s.mode (syms.map (OutBeat.mk .sym)) :=
      dataSoFar_syms fun henc => hsyms (by simp [henc])
    exact .fails _ _ hmode hdata (hevents.trans List.map_append)

/-- `rst` or another step of an open session. -/
theorem inSession_step_cases {s s' : State} (hopen : s.InSession) (hs : step s = .next s') :
    stepEvents s = [.reset] ∨ SessionStep s s' := by
  by_cases hrst : s.inp.head? = some .rst
  · obtain ⟨rest, hinp⟩ := List.head?_eq_some_iff.1 hrst
    exact .inl (stepEvents_of_rst hinp)
  · exact .inr (sessionStep_of_step hopen hs hrst)

/-- A session that emits `DONE` after its data has succeeded, whatever follows. -/
theorem sessionResult_done {m : Mode} {beats : List OutBeat} (h : ∀ o ∈ beats, o.kind = dataKind m) (d : Byte)
    (events : List RunEvent) :
    sessionResult (beats.map .emitted ++ .emitted ⟨.done, d⟩ :: events) = .succeeded beats d := by
  rw [sessionResult_data beats _ fun o ho => h o ho ▸ dataKind_eq m]
  simp [sessionResult, SessionResult.after]

/-- A session that emits `ERR` has failed, with the data emitted so far. -/
theorem sessionResult_err {m : Mode} {beats : List OutBeat} (h : DataSoFar m beats) (d : Byte)
    (events : List RunEvent) :
    sessionResult (beats.map .emitted ++ .emitted ⟨.err, d⟩ :: events) = .failed beats d := by
  rw [sessionResult_data beats _ fun o ho => .inr (h.kind_sym o ho)]
  simp [sessionResult, SessionResult.after]

/-- Data of an open session stands in front of the data of its result. -/
theorem sessionResult_goesOn {m : Mode} {beats : List OutBeat} (h : DataSoFar m beats)
    (events : List RunEvent) :
    sessionResult (beats.map .emitted ++ events) = (sessionResult events).after beats :=
  sessionResult_data beats events fun o ho => .inr (h.kind_sym o ho)

theorem after_eq_unfinished_iff {beats : List OutBeat} {r : SessionResult} :
    r.after beats = .unfinished ↔ r = .unfinished := by
  cases r <;> simp [SessionResult.after]

/-- The step that ends a session leaves mode `IDLE` if it succeeded and mode `FAULT` if it failed (R152). -/
theorem SessionStep.result_iff {s s' : State} (h : SessionStep s s') (hopen : s.InSession) :
    ((∃ data d, sessionResult (stepEvents s) = .succeeded data d) ↔ s'.mode = .idle) ∧
    ((∃ data d, sessionResult (stepEvents s) = .failed data d) ↔ s'.mode = .fault) := by
  obtain ⟨beats, hmode, hdata, hev⟩ | ⟨beats, d, hmode, hdata, hev⟩ | ⟨beats, d, hmode, hdata, hev⟩ := h
  · rw [hev, sessionResult_goesOn hdata, hmode]
    rcases hopen with hm | hm <;> simp [hm, sessionResult, SessionResult.after]
  · rw [hev, sessionResult_done hdata, hmode]
    simp
  · rw [hev, sessionResult_err hdata, hmode]
    simp

/-! ### Sessions: runs -/

/-- A step that stops shows no event. -/
theorem stepEvents_of_stop {s : State} (hstop : ∀ s', step s ≠ .next s') : stepEvents s = [] := by
  cases hinp : s.inp with
  | nil => exact stepEvents_of_nil hinp
  | cons m rest =>
    cases m with
    | rst => exact absurd (step_of_rst hinp) (hstop _)
    | beat b =>
      cases hs : step s with
      | next s' => exact absurd hs (hstop s')
      | fault | refused => simp [stepEvents, hinp, hs]

/-- A longer run shows the events of its first step and of the rest, or, where the first step stops, none. -/
theorem runEvents_cases (n : Nat) (s : State) :
    (∃ s', step s = .next s' ∧ runEvents (n + 1) s = stepEvents s ++ runEvents n s') ∨
    runEvents (n + 1) s = [] := by
  cases hs : step s with
  | next s' => exact .inl ⟨s', rfl, runEvents_succ n hs⟩
  | fault | refused =>
    exact .inr (by rw [runEvents, stepEvents_of_stop (by simp [hs]), hs]; rfl)

/-- The data of the result of a session of mode `m` (R52, R79). -/
def SessionResult.DataFits (m : Mode) : SessionResult → Prop
  | .succeeded data _ => ∀ o ∈ data, o.kind = dataKind m
  | .failed data _ => DataSoFar m data
  | .unfinished => True

theorem SessionResult.DataFits.after {m : Mode} {beats : List OutBeat} {r : SessionResult}
    (hb : DataSoFar m beats) (hr : r.DataFits m) : (r.after beats).DataFits m := by
  cases r with
  | succeeded => exact List.forall_mem_append.2 ⟨hb.kind, hr⟩
  | failed => exact hb.append hr
  | unfinished => trivial

/-- The result of a session, read off any run of its rest, has the data of its mode. -/
theorem sessionResult_dataFits (n : Nat) {s : State} (hopen : s.InSession) :
    (sessionResult (runEvents n s)).DataFits s.mode := by
  induction n generalizing s with
  | zero => trivial
  | succ n ih =>
    rcases runEvents_cases n s with ⟨s', hs, hrun⟩ | hrun
    · rw [hrun]
      rcases inSession_step_cases hopen hs with hev | ⟨beats, hmode, hdata, hev⟩ |
        ⟨beats, d, -, hdata, hev⟩ | ⟨beats, d, -, hdata, hev⟩ <;> rw [hev]
      · trivial
      · have hopen' : s'.InSession := by rwa [State.InSession, hmode]
        rw [List.append_nil, sessionResult_goesOn hdata]
        exact (hmode ▸ ih hopen').after hdata
      · rw [List.append_assoc, List.singleton_append, sessionResult_done hdata]
        exact hdata
      · rw [List.append_assoc, List.singleton_append, sessionResult_err hdata]
        exact hdata
    · rw [hrun]; trivial

/-- A session is open after a beat only if it was before, or the beat begins it. -/
theorem BeatEffect.inSession {b : Beat} {s s' : State} (he : BeatEffect b s s') (hopen : s'.InSession) :
    s.InSession ∨ opensSession b s = true := by
  cases he with
  | discarded => exact .inl hopen
  | encBegin hd hm => exact .inr (opensSession_iff.2 ⟨hm, .inl hd⟩)
  | decBegin r hd hm _ => exact .inr (opensSession_iff.2 ⟨hm, .inr ⟨r, hd⟩⟩)
  | encSym _ _ hm _ => exact .inl (.inl hm)
  | encEnd _ hm => exact .inl (.inl hm)
  | decByte hm _ => exact .inl (.inr hm)
  | decEnd _ hm _ => exact .inl (.inr hm)
  | raised => simp [State.InSession] at hopen

/-- A step that takes a beat shows a beginning exactly when the beat opens a session. -/
theorem began_mem_iff_of_beat {s s' : State} {b : Beat} {rest : List HostMove}
    (hinp : s.inp = .beat b :: rest) (hs : step s = .next s') :
    .began ∈ stepEvents s ↔ opensSession b s = true := by
  obtain ⟨beats, hout⟩ := step_out_prefix hs
  rw [stepEvents_of_beat hinp hs hout.symm]
  split <;> simp_all

/-- A step that begins no session opens none. -/
theorem not_inSession_step {s s' : State} (hclosed : ¬ s.InSession) (hs : step s = .next s')
    (hbegan : .began ∉ stepEvents s) : ¬ s'.InSession := by
  rcases step_effect hs with ⟨-, rfl⟩ | ⟨rest, -, rfl⟩ | ⟨b, rest, hinp, he⟩
  · exact hclosed
  · simp [State.InSession]
  · intro hopen
    rcases he.inSession hopen with h | h
    · exact hclosed h
    · exact hbegan ((began_mem_iff_of_beat hinp hs).2 h)

/-- While no session begins none is opened. -/
theorem not_inSession_stepN {n : Nat} {s s' : State} (hclosed : ¬ s.InSession) (hs : stepN n s = .next s')
    (hbegan : .began ∉ runEvents n s) : ¬ s'.InSession := by
  induction n generalizing s with
  | zero => cases hs; exact hclosed
  | succ n ih =>
    obtain ⟨u, hstep, hrun⟩ := stepN_succ_eq_next.1 hs
    rw [runEvents_succ n hstep, List.mem_append, not_or] at hbegan
    exact ih (not_inSession_step hclosed hstep hbegan.1) hrun hbegan.2

/-- While no session begins and no reset comes, a session is unfinished as long as the mode is that of an open
session (R152). -/
theorem sessionResult_unfinished_iff {n : Nat} {s s' : State} (hopen : s.InSession)
    (hs : stepN n s = .next s') (hbegan : .began ∉ runEvents n s) (hreset : .reset ∉ runEvents n s) :
    sessionResult (runEvents n s) = .unfinished ↔ s'.InSession := by
  induction n generalizing s with
  | zero => cases hs; simpa [runEvents, sessionResult] using hopen
  | succ n ih =>
    obtain ⟨u, hstep, hrun⟩ := stepN_succ_eq_next.1 hs
    rw [runEvents_succ n hstep, List.mem_append, not_or] at hbegan hreset
    rw [runEvents_succ n hstep]
    have hclosed (hu : u.mode = .idle ∨ u.mode = .fault) : ¬ s'.InSession := by
      refine not_inSession_stepN ?_ hrun hbegan.2
      rcases hu with hu | hu <;> simp [State.InSession, hu]
    rcases inSession_step_cases hopen hstep with hev | ⟨beats, hmode, hdata, hev⟩ |
      ⟨beats, d, hmode, hdata, hev⟩ | ⟨beats, d, hmode, hdata, hev⟩
    · simp [hev] at hreset
    · have hopen' : u.InSession := by rwa [State.InSession, hmode]
      rw [hev, List.append_nil, sessionResult_goesOn hdata, after_eq_unfinished_iff]
      exact ih hopen' hrun hbegan.2 hreset.2
    · rw [hev, List.append_assoc, List.singleton_append, sessionResult_done hdata]
      simpa using hclosed (.inl hmode)
    · rw [hev, List.append_assoc, List.singleton_append, sessionResult_err hdata]
      simpa using hclosed (.inr hmode)

/-- A run that goes on after `n` steps shows the events of both parts. -/
theorem runEvents_add {n : Nat} {s s' : State} (m : Nat) (hs : stepN n s = .next s') :
    runEvents (n + m) s = runEvents n s ++ runEvents m s' := by
  induction n generalizing s with
  | zero => cases hs; simp [runEvents]
  | succ n ih =>
    obtain ⟨u, hstep, hrun⟩ := stepN_succ_eq_next.1 hs
    rw [Nat.add_right_comm, runEvents_succ _ hstep, runEvents_succ _ hstep, ih hrun, List.append_assoc]

/-- A session to which reset comes first is unfinished, whatever follows. -/
theorem sessionResult_of_rst {n : Nat} {s s' : State} (hs : stepN n s = .next s')
    (hres : sessionResult (runEvents n s) = .unfinished) (hrst : s'.inp.head? = some .rst) (m : Nat) :
    sessionResult (runEvents (n + 1 + m) s) = .unfinished := by
  obtain ⟨rest, hinp⟩ := List.head?_eq_some_iff.1 hrst
  rw [Nat.add_assoc, Nat.add_comm 1 m, runEvents_add _ hs, runEvents_succ m (step_of_rst hinp),
    stepEvents_of_rst hinp, List.singleton_append]
  exact sessionResult_reset _ hres

/-- A `*_BEGIN` in mode `IDLE` is defined in every state. -/
theorem step_of_begin {s : State} {b : Beat} {rest : List HostMove} (hinp : s.inp = .beat b :: rest)
    (hidle : s.mode = .idle) (hbegin : decode b = .ok .encBegin ∨ ∃ r, decode b = .ok (.decBegin r)) :
    ∃ s', step s = .next s' := by
  have hf : s.mode ≠ .fault := by simp [hidle]
  rcases hbegin with hd | ⟨r, hd⟩
  · exact ⟨_, (step_of_decode hinp hf hd).trans (exec_of_legal (s := s.setInp rest) hidle)⟩
  · exact ⟨_, (step_of_decode hinp hf hd).trans (exec_of_legal (s := s.setInp rest) hidle)⟩

/-- A session begins exactly where a `*_BEGIN` is taken in mode `IDLE` (R152). -/
theorem began_mem_stepEvents_iff {s : State} :
    .began ∈ stepEvents s ↔ s.mode = .idle ∧ ∃ b rest, s.inp = .beat b :: rest ∧
      (decode b = .ok .encBegin ∨ ∃ r, decode b = .ok (.decBegin r)) := by
  constructor
  · intro h
    cases hinp : s.inp with
    | nil => simp [stepEvents_of_nil hinp] at h
    | cons m rest =>
      cases m with
      | rst => simp [stepEvents_of_rst hinp] at h
      | beat b =>
        cases hs : step s with
        | next s' =>
          obtain ⟨hidle, hbegin⟩ := opensSession_iff.1 ((began_mem_iff_of_beat hinp hs).1 h)
          exact ⟨hidle, b, rest, rfl, hbegin⟩
        | fault | refused => simp [stepEvents_of_stop (s := s) (by simp [hs])] at h
  · rintro ⟨hidle, b, rest, hinp, hbegin⟩
    obtain ⟨s', hs⟩ := step_of_begin hinp hidle hbegin
    exact (began_mem_iff_of_beat hinp hs).2 (opensSession_iff.2 ⟨hidle, hbegin⟩)

end Sys2Proof.Machine

/-! ### The output format and the sessions settled -/

namespace Sys2Proof

open Sys2Proof.Machine

/-- Settles O9: each effect of a beat emits beats in format. -/
theorem outputFormat : Obligations.OutputFormat := fun _ _ h hs => step_inFormat hs h

/-- Settles O10: a step of an open session goes on, succeeds or fails (`SessionStep`, from the shape of what it
emits), and runs follow by induction on the number of steps. -/
theorem sessionData : Obligations.SessionData := by
  refine fun s => ⟨began_mem_stepEvents_iff, fun henc n => ?_, fun hdec n => ?_, fun hopen => ⟨?_, ?_⟩⟩
  · have hfits := sessionResult_dataFits n (s := s) (.inl henc)
    rw [henc] at hfits
    exact ⟨fun data d hres => by rwa [hres] at hfits,
      fun data d hres => by rw [hres] at hfits; exact hfits.none_of_enc rfl⟩
  · have hfits := sessionResult_dataFits n (s := s) (.inr hdec)
    rw [hdec] at hfits
    exact ⟨fun data d hres => by rwa [hres] at hfits,
      fun data d hres => by rw [hres] at hfits; exact hfits.kind_sym⟩
  · intro s' hs hrst
    exact (sessionStep_of_step hopen hs hrst).result_iff hopen
  · intro n s' hs hbegan hreset
    have hiff := sessionResult_unfinished_iff hopen hs hbegan hreset
    exact ⟨hiff, fun hopen' hrst m => sessionResult_of_rst hs (hiff.2 hopen') hrst m⟩

end Sys2Proof

/-! ### Padding and packing (R73, R74) -/

namespace Sys2Proof.Machine

theorem padLen_pos (l : Nat) : 1 ≤ padLen l := by unfold padLen; omega

theorem padLen_le_eight (l : Nat) : padLen l ≤ 8 := Nat.sub_le _ _

/-- The padding fills the last byte, and a whole byte if there is none to fill. -/
theorem add_padLen (l : Nat) : l + padLen l = 8 * (l / 8 + 1) := by unfold padLen; omega

theorem header_length (l : Nat) : (header l).length = padLen l := by
  simp [header, sentinel, Nat.sub_add_cancel (padLen_pos l)]

theorem true_mem_header (l : Nat) : true ∈ header l := by simp [header, sentinel]

theorem header_append_length (b : Bits) :
    (header b.length ++ b).length = 8 * (b.length / 8 + 1) := by
  rw [List.length_append, header_length, Nat.add_comm, add_padLen]

theorem bytesOf_length (n : Nat) (p : Bits) : (bytesOf n p).length = n := by
  induction n generalizing p with
  | zero => rfl
  | succ n ih => rw [bytesOf, List.length_cons, ih]

@[simp] theorem pack_length (b : Bits) : (pack b).length = b.length / 8 + 1 := bytesOf_length _ _

/-- A bit-string of whole bytes cut into its bytes reads back the same (R35). -/
theorem streamBits_bytesOf {n : Nat} {p : Bits} (hlen : p.length = 8 * n) :
    streamBits (bytesOf n p) = p := by
  induction n generalizing p with
  | zero => exact (List.length_eq_zero_iff.1 hlen).symm
  | succ n ih =>
    have hfirst : (p.take 8).length = 8 := by rw [List.length_take]; omega
    have hrest : (p.drop 8).length = 8 * n := by rw [List.length_drop]; omega
    calc streamBits (bytesOf (n + 1) p)
        = bitsOf (byteOf (p.take 8)) ++ streamBits (bytesOf n (p.drop 8)) := rfl
      _ = p.take 8 ++ p.drop 8 := by rw [bitsOf_byteOf hfirst, ih hrest]
      _ = p := List.take_append_drop 8 p

theorem streamBits_pack (b : Bits) : streamBits (pack b) = header b.length ++ b :=
  streamBits_bytesOf (header_append_length b)

/-- The sentinel stands in the first byte, since the header has at most eight bits. -/
theorem pack_head_ne_zero {b : Bits} {x : Byte} {rest : List Byte} (h : pack b = x :: rest) :
    x ≠ 0 := by
  have hstream : bitsOf x ++ streamBits rest = header b.length ++ b := by
    rw [← streamBits_pack, h]; rfl
  have hprefix : header b.length <+: bitsOf x := by
    refine List.prefix_of_prefix_length_le ⟨b, hstream.symm⟩ ⟨streamBits rest, rfl⟩ ?_
    rw [header_length, bitsOf_length]
    exact padLen_le_eight _
  have hsentinel : true ∈ bitsOf x := hprefix.subset (true_mem_header _)
  rintro rfl
  exact absurd hsentinel (by decide)

end Sys2Proof.Machine

/-! ### The encoder commands, case by case (R70, R72, R76) -/

namespace Sys2Proof.Machine

/-- In a mode `m` that is neither its own nor `FAULT` an instruction raises `Sequence` (R125). -/
theorem exec_of_wrong_mode {i : Instr} {s : State} {m : Mode} (hs : s.mode = m) (hf : m ≠ .fault)
    (hm : m ≠ legalMode i) : exec i s = .next (raise .sequence s) := by
  subst hs
  rw [exec_eq_inMode, inMode_of_ne hf hm]

theorem symbolBits_length (c : Config) (n : Nat) : (symbolBits c n).length = c.codeLen n :=
  lowBits_length _ _

theorem fits_iff {c : Config} {n : Nat} :
    c.fits n = true ↔ ∀ cap, c.bitbufCap = some cap → n ≤ cap := by
  unfold Config.fits
  cases c.bitbufCap <;> simp

theorem fits_mono {c : Config} {m n : Nat} (hmn : m ≤ n) (h : c.fits n = true) : c.fits m = true :=
  fits_iff.2 fun cap hcap => hmn.trans (fits_iff.1 h cap hcap)

theorem hasCode_iff {c : Config} {n : Nat} :
    c.hasCode n = true ↔ 1 ≤ c.codeLen n ∧ c.codeLen n ≤ c.maxLen := by
  simp [Config.hasCode]

theorem decode_encSym_beat (sym : Byte) : decode (cmdBeat 0b010 sym) = .ok (.encSym sym) := by
  simp [decode]

section AppendSymbol

variable {s : State} {sym : Byte}

theorem exec_encSym_of_enc (hm : s.mode = .enc) :
    exec (.encSym sym) s = .next (appendSymbol sym s) :=
  exec_of_legal hm

theorem appendSymbol_of_range (hk : s.cfg.k ≤ sym.toNat) : appendSymbol sym s = raise .symbolRange s :=
  if_pos hk

variable (hk : sym.toNat < s.cfg.k)
include hk

theorem appendSymbol_of_noCode (hcode : s.cfg.hasCode sym.toNat = false) :
    appendSymbol sym s = raise .invalidBitstring s := by
  rw [appendSymbol, if_neg (Nat.not_le.2 hk), if_pos hcode]

variable (hcode : s.cfg.hasCode sym.toNat = true)
include hcode

theorem appendSymbol_of_overflow
    (hfit : s.cfg.fits (s.bitbuf.length + s.cfg.codeLen sym.toNat) = false) :
    appendSymbol sym s = raise .bufferOverflow s := by
  rw [appendSymbol, if_neg (Nat.not_le.2 hk), if_neg (by simp [hcode]), if_pos hfit]

theorem appendSymbol_of_fits
    (hfit : s.cfg.fits (s.bitbuf.length + s.cfg.codeLen sym.toNat) = true) :
    appendSymbol sym s = s.setBitbuf (s.bitbuf ++ symbolBits s.cfg sym.toNat) := by
  rw [appendSymbol, if_neg (Nat.not_le.2 hk), if_neg (by simp [hcode]), if_neg (by simp [hfit])]

end AppendSymbol

/-- The effect of `ENC_SYM` does not depend on the waiting moves. -/
theorem appendSymbol_setInp (sym : Byte) (s : State) (moves : List HostMove) :
    appendSymbol sym (s.setInp moves) = (appendSymbol sym s).setInp moves := by
  simp only [appendSymbol, State.setInp_cfg, State.setInp_bitbuf]
  split_ifs <;> rfl

/-- `STATUS` is 0 while both flags are (R20). -/
theorem status_eq_zero {s : State} (hpad : s.corruptPad = false) (hmid : s.midcode = false) :
    status s = 0 := by
  rw [status, hpad, hmid]; rfl

end Sys2Proof.Machine

/-! ### Runs of commands (R23, R64) -/

namespace Sys2Proof.Machine

theorem stepN_add {n : Nat} {s u : State} (m : Nat) (hs : stepN n s = .next u) :
    stepN (n + m) s = stepN m u := by
  induction n generalizing s with
  | zero => cases hs; rw [Nat.zero_add]
  | succ n ih =>
    obtain ⟨v, hstep, hrun⟩ := stepN_succ_eq_next.1 hs
    rw [Nat.add_right_comm, stepN, hstep]
    exact ih hrun

/-- The commands of `program`, sent in state `s`, lead to `s'`, whatever moves wait behind them. -/
def Sends (program : List Instr) (s s' : State) : Prop :=
  ∀ later, stepN program.length (s.offer (movesOf program ++ later)) = .next (s'.offer later)

theorem movesOf_append (p q : List Instr) : movesOf (p ++ q) = movesOf p ++ movesOf q :=
  List.map_append

namespace Sends

variable {p q : List Instr} {s u s' : State}

theorem nil (s : State) : Sends [] s s := fun _ => rfl

theorem append (hp : Sends p s u) (hq : Sends q u s') : Sends (p ++ q) s s' := by
  intro later
  rw [List.length_append, movesOf_append, List.append_assoc, stepN_add _ (hp _)]
  exact hq later

/-- The run that sends the commands in front of the moves already waiting. -/
theorem run (h : Sends p s s') : stepN p.length (s.offer (movesOf p)) = .next s' := by
  have hrun := h []
  rwa [List.append_nil] at hrun

/-- In mode `FAULT` whatever is sent is discarded (R133). -/
theorem of_fault (hf : s.mode = .fault) (p : List Instr) : Sends p s s := by
  intro later
  induction p with
  | nil => rfl
  | cons i p ih =>
    have hbeat : ∃ b, movesOf (i :: p) = .beat b :: movesOf p := by
      cases i <;> exact ⟨_, rfl⟩
    obtain ⟨b, hmoves⟩ := hbeat
    have hstep : step (s.offer (movesOf (i :: p) ++ later)) = .next (s.offer (movesOf p ++ later)) :=
      step_of_fault (by rw [hmoves]; rfl) hf
    exact stepN_succ_eq_next.2 ⟨_, hstep, ih⟩

/-- One command beat has the effect of its command, if that does not depend on the waiting moves. -/
theorem command {i : Instr} {b : Beat} (hi : encode i = .cmd b) (hd : decode b = .ok i)
    (hf : s.mode ≠ .fault) (hexec : ∀ moves, exec i (s.setInp moves) = .next (s'.setInp moves))
    (hinp : s'.inp = s.inp) : Sends [i] s s' := by
  intro later
  have hmoves : movesOf [i] = [.beat b] := by simp [movesOf, hi]
  have hstep : step (s.offer (movesOf [i] ++ later)) = .next (s'.offer later) := by
    rw [hmoves, State.offer, State.offer, hinp, ← hexec]
    exact step_of_decode rfl hf hd
  exact stepN_succ_eq_next.2 ⟨_, hstep, rfl⟩

theorem encBegin (hm : s.mode = .idle) : Sends [.encBegin] s (openEncode s) :=
  command rfl rfl (by simp [hm]) (fun moves => exec_of_legal (s := s.setInp moves) hm) rfl

theorem encEnd (hm : s.mode = .enc) : Sends [.encEnd] s (closeEncode s) :=
  command rfl rfl (by simp [hm]) (fun moves => exec_of_legal (s := s.setInp moves) hm) rfl

theorem encSym (hm : s.mode = .enc) {sym : Byte} (h : appendSymbol sym s = s')
    (hinp : s'.inp = s.inp) : Sends [.encSym sym] s s' := by
  refine command rfl (decode_encSym_beat sym) (by simp [hm]) (fun moves => ?_) hinp
  rw [exec_encSym_of_enc (s := s.setInp moves) hm, appendSymbol_setInp, h]

end Sends

end Sys2Proof.Machine

/-! ### A whole encode session (R71, R77) -/

namespace Sys2Proof.Machine

@[simp] theorem encodeText_nil (c : Config) : encodeText c [] = [] := rfl

theorem encodeText_cons (c : Config) (t : Byte) (text : List Byte) :
    encodeText c (t :: text) = symbolBits c t.toNat ++ encodeText c text := rfl

theorem encodeText_snoc_length (c : Config) (text : List Byte) (t : Byte) :
    (encodeText c (text ++ [t])).length = (encodeText c text).length + c.codeLen t.toNat := by
  simp [encodeText, symbolBits_length]

theorem encodeProgram_length (text : List Byte) : (encodeProgram text).length = text.length + 2 := by
  simp [encodeProgram]

/-- The state of an encode session, begun in state `s`, with these bits in the buffer. -/
def encoding (s : State) (bits : Bits) : State := (openEncode s).setBitbuf bits

section Encoding

variable {s : State}

/-- Both flags are 0 throughout an encode session, so that it is closed with `DONE(0x00)` (R76). -/
theorem closeEncode_encoding (bits : Bits) :
    closeEncode (encoding s bits) =
      { s with
        mode := .idle, bitbuf := [], corruptPad := false, midcode := false,
        out := s.out ++ ((pack bits).map (fun b => ⟨.byte, b⟩) ++ [⟨.done, 0⟩]) } := by
  have hstatus : status (encoding s bits) = 0 := status_eq_zero rfl rfl
  rw [closeEncode, streamBeats, hstatus]
  rfl

/-- Symbols with codes that fit behind the bits already in the buffer are appended one after another. -/
theorem sends_symbols {text : List Byte} {bits : Bits}
    (hcode : ∀ t ∈ text, t.toNat < s.cfg.k ∧ s.cfg.hasCode t.toNat = true)
    (hfit : s.cfg.fits (bits.length + (encodeText s.cfg text).length) = true) :
    Sends (text.map .encSym) (encoding s bits) (encoding s (bits ++ encodeText s.cfg text)) := by
  induction text generalizing bits with
  | nil =>
    rw [encodeText_nil, List.append_nil]
    exact .nil _
  | cons t text ih =>
    obtain ⟨⟨hk, hc⟩, hcode⟩ := List.forall_mem_cons.1 hcode
    rw [encodeText_cons, List.length_append, ← Nat.add_assoc, symbolBits_length] at hfit
    rw [encodeText_cons, ← List.append_assoc]
    have hfirst : appendSymbol t (encoding s bits) = encoding s (bits ++ symbolBits s.cfg t.toNat) :=
      appendSymbol_of_fits hk hc (fits_mono (Nat.le_add_right _ _) hfit)
    have hrest := ih (bits := bits ++ symbolBits s.cfg t.toNat) hcode
      (by rwa [List.length_append, symbolBits_length])
    exact (Sends.encSym rfl hfirst rfl).append hrest

section WithoutFault

variable {text : List Byte} (hidle : s.mode = .idle)
  (hcode : ∀ t ∈ text, t.toNat < s.cfg.k ∧ s.cfg.hasCode t.toNat = true)
  (hfit : s.cfg.fits (encodeText s.cfg text).length = true)
include hidle hcode hfit

/-- `ENC_BEGIN` and the symbols of a text without a fault leave its code bits in the buffer (R71). -/
theorem sends_begin_symbols :
    Sends (.encBegin :: text.map .encSym) s (encoding s (encodeText s.cfg text)) :=
  (Sends.encBegin hidle).append (sends_symbols (bits := []) hcode (by simpa using hfit))

/-- A text without a fault is packed and closed with `DONE(0x00)` (R77). -/
theorem sends_encodeProgram :
    Sends (encodeProgram text) s (closeEncode (encoding s (encodeText s.cfg text))) :=
  (sends_begin_symbols hidle hcode hfit).append (Sends.encEnd rfl)

/-- The first symbol whose check raises a fault ends the session, and what follows is discarded (R77). -/
theorem sends_encodeProgram_of_raise {t : Byte} {c : Cause} (later : List Byte)
    (hraise : appendSymbol t (encoding s (encodeText s.cfg text)) =
      raise c (encoding s (encodeText s.cfg text))) :
    Sends (encodeProgram (text ++ t :: later)) s (raise c (encoding s (encodeText s.cfg text))) := by
  have hsplit : encodeProgram (text ++ t :: later) =
      .encBegin :: text.map .encSym ++ ([.encSym t] ++ (later.map .encSym ++ [.encEnd])) := by
    simp [encodeProgram]
  rw [hsplit]
  exact (sends_begin_symbols hidle hcode hfit).append
    ((Sends.encSym rfl hraise rfl).append (Sends.of_fault rfl _))

end WithoutFault

end Encoding

end Sys2Proof.Machine

/-! ### The statements about the encoder settled -/

namespace Sys2Proof

open Sys2Proof.Machine

/-- Settles O32, from the division of `L` by 8. -/
theorem padLenOfLength : Obligations.PadLen := by
  refine fun l => ⟨rfl, padLen_pos l, padLen_le_eight l, fun h => ?_, ?_, add_padLen l, fun m hm h8 => ?_⟩
  · rw [padLen, h]
  · rw [padLen, padLen, Nat.mod_mod]
  · rw [add_padLen]; omega

/-- Settles O33: packing cuts the header and the payload into bytes, the sentinel within the first. -/
theorem packShape : Obligations.PackShape := fun b =>
  ⟨streamBits_pack b, rfl, header_length _, pack_length b, fun _ _ h => pack_head_ne_zero h⟩

/-- Settles O29: the mode check around `openEncode`. -/
theorem encBegin : Obligations.EncBegin := by
  refine ⟨rfl, fun s => ⟨fun hm => exec_of_legal hm, fun hm => ?_⟩⟩
  exact hm.elim (exec_of_wrong_mode · nofun nofun) (exec_of_wrong_mode · nofun nofun)

/-- Settles O31: the mode check around `closeEncode`. -/
theorem encEnd : Obligations.EncEnd := by
  refine ⟨rfl, fun s => ⟨fun hm => ⟨?_, pack_length _, status_eq_zero⟩, fun hm => ?_⟩⟩
  · rw [exec_of_legal (i := .encEnd) hm, List.append_assoc]
    rfl
  · exact hm.elim (exec_of_wrong_mode · nofun nofun) (exec_of_wrong_mode · nofun nofun)

/-- Settles O30: the mode check around `appendSymbol`, whose checks exclude each other. -/
theorem encSym : Obligations.EncSym := by
  refine ⟨by decide, fun s sym => ⟨fun hm => ?_, fun hm => ?_⟩⟩
  · exact hm.elim (exec_of_wrong_mode · nofun nofun) (exec_of_wrong_mode · nofun nofun)
  · rw [exec_encSym_of_enc hm]
    refine ⟨fun hk => ?_, fun hk hlen => ?_, fun hk hmin hmax => ⟨fun cap hcap hover => ?_, fun hfit => ?_⟩⟩
    · rw [appendSymbol_of_range hk]
    · have hcode : s.cfg.hasCode sym.toNat = false := by
        rw [← Bool.not_eq_true, hasCode_iff]; omega
      rw [appendSymbol_of_noCode hk hcode]
    · have hfit : s.cfg.fits (s.bitbuf.length + s.cfg.codeLen sym.toNat) = false := by
        rw [← Bool.not_eq_true, fits_iff]
        exact fun h => absurd (h cap hcap) (Nat.not_le.2 hover)
      rw [appendSymbol_of_overflow hk (hasCode_iff.2 ⟨hmin, hmax⟩) hfit]
    · rw [appendSymbol_of_fits hk (hasCode_iff.2 ⟨hmin, hmax⟩) (fits_iff.2 hfit)]
      rfl

/-- Settles O34: the run of `ENC_BEGIN` and the symbols, by induction on the text. -/
theorem bufferHoldsEncodedText : Obligations.BufferHoldsEncodedText := by
  intro s text hidle hcode hfit
  have hrun := (sends_begin_symbols hidle hcode hfit).run
  rwa [List.length_cons, List.length_map] at hrun

/-- Settles O35: the run up to `ENC_END`, and the run up to the symbol that fails a check. -/
theorem encodeSession : Obligations.EncodeSession := by
  refine ⟨fun s text hidle hcode hfit => ?_, fun s done t later c hidle hcode hfit hfails => ?_⟩
  · have hrun := (sends_encodeProgram hidle hcode hfit).run
    rw [encodeProgram_length] at hrun
    rw [hrun, closeEncode_encoding, List.append_assoc, hidle]
  · have hraise : appendSymbol t (encoding s (encodeText s.cfg done)) =
        raise c (encoding s (encodeText s.cfg done)) := by
      rcases hfails with ⟨hk, rfl⟩ | ⟨hk, hc, rfl⟩ | ⟨hk, hc, hover, rfl⟩
      · exact appendSymbol_of_range hk
      · exact appendSymbol_of_noCode hk hc
      · rw [encodeText_snoc_length] at hover
        exact appendSymbol_of_overflow hk hc hover
    have hrun := (sends_encodeProgram_of_raise hidle hcode hfit later hraise).run
    rwa [encodeProgram_length] at hrun

/-- Settles O36: the session of the empty text, whose packed form is the sentinel byte. -/
theorem emptyTextIsLegal : Obligations.EmptyTextIsLegal := by
  intro s hidle
  have hrun := encodeSession.1 s [] hidle (by simp) (fits_zero _)
  have hmoves : movesOf (encodeProgram []) = [.beat 0x100, .beat 0x300] := rfl
  have hpack : pack [] = [0x01] := by decide
  rw [hmoves, encodeText_nil, hpack, List.append_assoc] at hrun
  exact hrun

end Sys2Proof

/-! ### Pad detection and unpacking (R87, R88) -/

namespace Sys2Proof.Machine

theorem findIdx?_of_first_one {p : Bits} {i : Nat} (hone : p[i]? = some true)
    (hzero : ∀ j < i, p[j]? = some false) : p.findIdx? (fun bit => bit) = some i := by
  obtain ⟨hi, hbit⟩ := List.getElem?_eq_some_iff.1 hone
  refine List.findIdx?_eq_some_iff_getElem.2 ⟨hi, hbit, fun j hj => ?_⟩
  obtain ⟨_, hbit'⟩ := List.getElem?_eq_some_iff.1 (hzero j hj)
  simp [hbit']

/-- The first 1 bit is the sentinel; what stands after it is the payload (R87). -/
theorem stripHeader_of_first_one {p : Bits} {i : Nat} (hone : p[i]? = some true)
    (hzero : ∀ j < i, p[j]? = some false) : stripHeader p = (p.drop (i + 1), false) := by
  rw [stripHeader, findIdx?_of_first_one hone hzero]

/-- Bits without a 1 are stripped whole (R87). -/
theorem stripHeader_of_zeros {p : Bits} (h : ∀ bit ∈ p, bit = false) : stripHeader p = ([], true) := by
  rw [stripHeader, List.findIdx?_eq_none_iff.2 h]

theorem streamBits_cons (b : Byte) (bytes : List Byte) :
    streamBits (b :: bytes) = bitsOf b ++ streamBits bytes := rfl

/-- The first eight bits of a stream are those of its first byte. -/
theorem streamBits_cons_getElem? {i : Nat} (b : Byte) (bytes : List Byte) (hi : i < 8) :
    (streamBits (b :: bytes))[i]? = (bitsOf b)[i]? :=
  List.getElem?_append_left (by rwa [bitsOf_length])

/-- `Unpack` byte by byte: the header byte's payload, then the later bytes (R88). -/
theorem unpack_cons (b : Byte) (bytes : List Byte) :
    unpack (b :: bytes) = some ((padDetect b).1 ++ streamBits bytes, (padDetect b).2) := by
  have htake : (streamBits (b :: bytes)).take 8 = bitsOf b := List.take_left' (bitsOf_length b)
  have hdrop : (streamBits (b :: bytes)).drop 8 = streamBits bytes := List.drop_left' (bitsOf_length b)
  simp only [unpack, htake, padDetect, stripHeader]
  cases hidx : (bitsOf b).findIdx? (fun bit => bit) with
  | none => simp only [hdrop, List.nil_append]
  | some i =>
    obtain ⟨hi, -⟩ := List.findIdx?_eq_some_iff_getElem.1 hidx
    simp only [streamBits_cons, List.drop_append_of_le_length (Nat.succ_le_of_lt hi)]

theorem unpack_of_first_one {bytes : List Byte} {i : Nat} (hi : i < 8)
    (hone : (streamBits bytes)[i]? = some true) (hzero : ∀ j < i, (streamBits bytes)[j]? = some false) :
    unpack bytes = some ((streamBits bytes).drop (i + 1), false) := by
  cases bytes with
  | nil => cases hone
  | cons b bytes =>
    rw [streamBits_cons_getElem? b bytes hi] at hone
    have hzero' : ∀ j < i, (bitsOf b)[j]? = some false := fun j hj => by
      rw [← streamBits_cons_getElem? b bytes (hj.trans hi)]
      exact hzero j hj
    have hlen : i + 1 ≤ (bitsOf b).length := by rw [bitsOf_length]; exact hi
    rw [unpack_cons, padDetect, stripHeader_of_first_one hone hzero', streamBits_cons,
      List.drop_append_of_le_length hlen]

theorem unpack_of_zeros {bytes : List Byte} (hne : bytes ≠ [])
    (hzero : ∀ j < 8, (streamBits bytes)[j]? = some false) :
    unpack bytes = some ((streamBits bytes).drop 8, true) := by
  cases bytes with
  | nil => exact absurd rfl hne
  | cons b bytes =>
    have hzeros : ∀ bit ∈ bitsOf b, bit = false := fun bit hbit => by
      obtain ⟨j, hj, rfl⟩ := List.mem_iff_getElem.1 hbit
      have hj8 : j < 8 := by rwa [bitsOf_length] at hj
      have h := hzero j hj8
      rw [streamBits_cons_getElem? b bytes hj8, List.getElem?_eq_getElem hj] at h
      exact Option.some.inj h
    rw [unpack_cons, padDetect, stripHeader_of_zeros hzeros, streamBits_cons,
      List.drop_left' (bitsOf_length b), List.nil_append]

/-- Unpacking finds the sentinel that packing put at the end of the header (R93). -/
theorem unpack_pack (b : Bits) : unpack (pack b) = some (b, false) := by
  have hheader : streamBits (pack b) =
      List.replicate (padLen b.length - 1) false ++ true :: b := by
    simp [streamBits_pack, header, sentinel]
  have hlen : padLen b.length - 1 < 8 := by have := padLen_le_eight b.length; omega
  rw [unpack_of_first_one hlen (by simp [hheader]) fun j hj => by simp [hheader, List.getElem?_append, hj]]
  simp [hheader, List.drop_append]

end Sys2Proof.Machine

namespace Sys2Proof

open Sys2Proof.Machine

/-- Settles O46: the sentinel ends the header, within the first byte. -/
theorem unpackPack : Obligations.UnpackPack := unpack_pack

/-- Settles O44: a stream is unpacked by pad detection on its first byte. -/
theorem unpackStream : Obligations.UnpackStream :=
  ⟨rfl, fun _ _ hi hone hzero => unpack_of_first_one hi hone hzero,
    fun _ hne hzero => unpack_of_zeros hne hzero, unpack_cons⟩

/-- Settles O40: the sentinel is the first 1 bit of the byte, whatever the index. -/
theorem padDetectOfByte : Obligations.PadDetect := by
  refine ⟨by decide, fun b i hi hone hzero => ⟨stripHeader_of_first_one ?_ fun j hj => ?_, ?_⟩⟩
  · rw [bitsOf, lowBits_getElem? b hi, hone]
  · rw [bitsOf, lowBits_getElem? b (hj.trans hi), hzero j hj]
  · rw [List.length_drop, bitsOf_length]; omega

end Sys2Proof

/-! ### The decoder commands, case by case (R85, R86, R89, R91) -/

namespace Sys2Proof

/-- The beat value of R64 with the operand below its `OP`. -/
theorem cmdBeat_eq_or (op : BitVec 3) (arg : Byte) : cmdBeat op arg = cmdBeat op 0 ||| arg.setWidth 11 := by
  rw [cmdBeat, cmdBeat, BitVec.append_def, BitVec.append_def]
  simp

theorem decode_decBegin_beat (r : Byte) : decode (cmdBeat 0b100 r) = .ok (.decBegin r) := by
  simp [decode]

end Sys2Proof

namespace Sys2Proof.Machine

section DecBegin

variable {s : State} {r : Byte}

theorem exec_decBegin_of_idle (hm : s.mode = .idle) : exec (.decBegin r) s = .next (beginDecode r s) :=
  exec_of_legal hm

theorem beginDecode_of_internal (hr : s.cfg.internalAt r.toNat = true) :
    beginDecode r s = openDecode r s := if_pos hr

theorem beginDecode_of_not_internal (hr : s.cfg.internalAt r.toNat = false) :
    beginDecode r s = raise .treeFault s := if_neg (Bool.eq_false_iff.1 hr)

end DecBegin

theorem internalAt_iff {c : Config} {i : Nat} :
    c.internalAt i = true ↔ i < c.nodes ∧ nodeTag (c.treeNode i) = true := by
  simp [Config.internalAt]

theorem leafAt_iff {c : Config} {i : Nat} :
    leafAt c i = true ↔ i < c.nodes ∧ nodeTag (c.treeNode i) = false := by
  simp [leafAt]

/-! ### One bit of the walk (R89) -/

section WalkBit

variable {s : State} {dest : Byte}

theorem walkBit_of_internal (bit : Bool) (hi : s.cfg.internalAt s.node.toNat = true) :
    walkBit bit s = arriveAt (child (s.cfg.treeNode s.node.toNat) bit) s := if_pos hi

theorem arriveAt_of_outside (hc : s.cfg.nodes ≤ dest.toNat) :
    arriveAt dest s = .raised (raise .treeFault s) := if_pos hc

theorem arriveAt_of_leaf (hc : leafAt s.cfg dest.toNat = true) :
    arriveAt dest s = .next (s.walked [symbolAt s.cfg dest.toNat] s.root) := by
  obtain ⟨hlt, htag⟩ := leafAt_iff.1 hc
  rw [arriveAt, if_neg (Nat.not_le.2 hlt), if_neg (Bool.eq_false_iff.1 htag)]
  rfl

theorem arriveAt_of_internal (hc : s.cfg.internalAt dest.toNat = true) :
    arriveAt dest s = .next (s.setNode dest) := by
  obtain ⟨hlt, htag⟩ := internalAt_iff.1 hc
  rw [arriveAt, if_neg (Nat.not_le.2 hlt), if_pos htag]

end WalkBit

/-- A walk that goes on after the bits `pre` goes on from the state they left. -/
theorem walkBits_append {pre : Bits} {s u : State} (rest : Bits) (h : walkBits pre s = .next u) :
    walkBits (pre ++ rest) s = walkBits rest u := by
  induction pre generalizing s with
  | nil => cases h; rfl
  | cons bit pre ih =>
    simp only [List.cons_append, walkBits] at h ⊢
    cases hw : walkBit bit s with
    | next v => rw [hw] at h; exact ih h
    | raised | stuck => simp [hw] at h

/-- A bit whose child lies outside the ROM ends the walk; what the bits before it did stands (R86). -/
theorem walkBits_of_outside {pre post : Bits} {bit : Bool} {s : State} {syms : List Byte} {node : Byte}
    (hpre : decodeFrom s.cfg s.root s.node pre = some (syms, node))
    (hnode : s.cfg.internalAt node.toNat = true) (hchild : s.cfg.nodes ≤ childAt s.cfg node.toNat bit) :
    walkBits (pre ++ bit :: post) s = .raised (raise .treeFault (s.walked syms node)) := by
  have hbit : walkBit bit (s.walked syms node) = .raised (raise .treeFault (s.walked syms node)) :=
    (walkBit_of_internal bit hnode).trans (arriveAt_of_outside hchild)
  rw [walkBits_append _ (walkBits_of_decodeFrom hpre), walkBits, hbit]

/-! ### A byte of the stream (R86) -/

section DecByte

variable {s : State} {b : Byte}

theorem payloadOf_of_first (hfirst : s.first = true) : payloadOf s b = padDetect b := if_pos hfirst

theorem payloadOf_of_not_first (hfirst : s.first = false) : payloadOf s b = (bitsOf b, false) :=
  if_neg (Bool.eq_false_iff.1 hfirst)

variable (hm : s.mode = .dec)
include hm

/-- In mode `DEC` a byte is its payload walked. -/
theorem exec_decByte_of_dec :
    exec (.decByte b) s = (walkBits (payloadOf s b).1 (s.received (payloadOf s b).2)).outcome := by
  rw [exec_of_legal (i := .decByte b) hm, bodyOf, takeByte_eq]
  cases hfirst : s.first with
  | true => rw [payloadOf_of_first hfirst]; rfl
  | false => rw [payloadOf_of_not_first hfirst]; rfl

theorem exec_decByte_of_decodeFrom {syms : List Byte} {last : Byte}
    (hwalk : decodeFrom s.cfg s.root s.node (payloadOf s b).1 = some (syms, last)) :
    exec (.decByte b) s = .next ((s.received (payloadOf s b).2).walked syms last) := by
  rw [exec_decByte_of_dec hm, walkBits_of_decodeFrom (s := s.received (payloadOf s b).2) hwalk]
  rfl

theorem exec_decByte_of_outside {pre post : Bits} {bit : Bool} {syms : List Byte} {node : Byte}
    (hbits : (payloadOf s b).1 = pre ++ bit :: post)
    (hpre : decodeFrom s.cfg s.root s.node pre = some (syms, node))
    (hnode : s.cfg.internalAt node.toNat = true) (hchild : s.cfg.nodes ≤ childAt s.cfg node.toNat bit) :
    exec (.decByte b) s =
      .next (raise .treeFault ((s.received (payloadOf s b).2).walked syms node)) := by
  rw [exec_decByte_of_dec hm, hbits,
    walkBits_of_outside (s := s.received (payloadOf s b).2) hpre hnode hchild]
  rfl

end DecByte

/-! ### The end of a decode session (R91) -/

theorem exec_decEnd_of_dec {s : State} (hm : s.mode = .dec) :
    exec .decEnd s = .next (closeDecode s) := exec_of_legal hm

/-- The `DONE` data of a decode session (R91, R92). -/
theorem statusByte_eq (midcode corruptPad : Bool) :
    statusByte midcode corruptPad = BitVec.ofNat 8 (corruptPad.toNat + 2 * midcode.toNat) := by
  cases midcode <;> cases corruptPad <;> decide

theorem closeDecode_eq {s : State} (hfirst : s.first = false) :
    closeDecode s = { s with
      midcode := endsMidcode s, mode := .idle,
      out := s.out ++ [⟨.done, statusByte (endsMidcode s) s.corruptPad⟩] } :=
  closeDecode_of_not_first hfirst

end Sys2Proof.Machine

namespace Sys2Proof

open Sys2Proof.Machine

/-- Settles O38: the three cases of arriving at the child. -/
theorem walkBitFromInternal : Obligations.WalkBit := by
  intro s bit hi
  rw [walkBit_of_internal bit hi]
  refine ⟨arriveAt_of_outside, fun hlt => ⟨fun htag => ?_, fun htag => ?_⟩⟩
  · exact arriveAt_of_leaf (leafAt_iff.2 ⟨hlt, htag⟩)
  · exact arriveAt_of_internal (internalAt_iff.2 ⟨hlt, htag⟩)

/-- Settles O41: in mode `DEC` a byte is the walk of its payload. -/
theorem decByte : Obligations.DecByte := by
  refine ⟨fun b => ?_, fun s b => ⟨fun hm => ?_, fun hfirst => ?_, fun hfirst => ?_, fun hm => ⟨?_, ?_⟩⟩⟩
  · exact (congrArg decode (cmdBeat_eq_or 0b101 b)).symm.trans (decode_decByte_beat b)
  · exact hm.elim (exec_of_wrong_mode · nofun nofun) (exec_of_wrong_mode · nofun nofun)
  · rw [payloadOf_of_first hfirst]
    exact ⟨rfl, padDetect_length b⟩
  · rw [payloadOf_of_not_first hfirst]
    exact ⟨rfl, bitsOf_length b⟩
  · exact fun syms last hwalk => ⟨exec_decByte_of_decodeFrom hm hwalk, decodeFrom_length_le hwalk⟩
  · exact fun pre bit post syms node hbits hpre hnode hchild =>
      exec_decByte_of_outside hm hbits hpre hnode hchild

/-- Settles O37: `DEC_BEGIN` asks for an internal root. -/
theorem decBegin : Obligations.DecBegin := by
  refine ⟨fun r => ?_, fun s r => ⟨fun hm => ?_, fun hm => ?_⟩⟩
  · exact (congrArg decode (cmdBeat_eq_or 0b100 r)).symm.trans (decode_decBegin_beat r)
  · exact hm.elim (exec_of_wrong_mode · nofun nofun) (exec_of_wrong_mode · nofun nofun)
  · rw [exec_decBegin_of_idle hm]
    refine ⟨fun hge => ?_, fun _ hleaf => ?_, fun hlt hint => ?_⟩
    · rw [beginDecode_of_not_internal (by simp [Config.internalAt, hge])]
    · rw [beginDecode_of_not_internal (by simp [Config.internalAt, hleaf])]
    · rw [beginDecode_of_internal (internalAt_iff.2 ⟨hlt, hint⟩)]
      rfl

/-- Settles O43: `DEC_END` without a byte, in mid-code, and at the root. -/
theorem decEnd : Obligations.DecEnd := by
  refine ⟨rfl, fun s => ⟨fun hm => ?_, fun hm hfirst => ?_, fun hm hfirst hne => ?_, fun hm hfirst heq => ?_⟩⟩
  · exact hm.elim (exec_of_wrong_mode · nofun nofun) (exec_of_wrong_mode · nofun nofun)
  · rw [exec_decEnd_of_dec hm, closeDecode_of_first hfirst]
  · have hmid : endsMidcode s = true := decide_eq_true hne
    rw [exec_decEnd_of_dec hm, closeDecode_eq hfirst, hmid]
    cases s.corruptPad <;> rfl
  · have hmid : endsMidcode s = false := decide_eq_false (not_not.2 heq)
    rw [exec_decEnd_of_dec hm, closeDecode_eq hfirst, hmid]
    cases s.corruptPad <;> rfl

end Sys2Proof

/-! ### The walk as a pure function (R90) -/

namespace Sys2Proof.Machine

section WalkStep

variable {c : Config} {node next : Byte} {bit : Bool}

/-- A bit moves the walk to an internal node: the child. -/
theorem walkStep_eq_internal_iff : walkStep c node bit = some (next, none) ↔
    c.internalAt node.toNat = true ∧ child (c.treeNode node.toNat) bit = next ∧
      c.internalAt next.toNat = true := by
  simp only [walkStep]
  split_ifs with hnode hout htag
  · refine iff_of_false nofun ?_
    rintro ⟨-, rfl, hint⟩
    exact Nat.not_lt.2 hout (internalAt_iff.1 hint).1
  · simp only [hnode, true_and, Option.some.injEq, Prod.mk.injEq, and_true]
    refine (and_iff_left_of_imp ?_).symm
    rintro rfl
    exact internalAt_iff.2 ⟨Nat.not_le.1 hout, htag⟩
  · refine iff_of_false nofun ?_
    rintro ⟨-, rfl, hint⟩
    exact htag (internalAt_iff.1 hint).2
  · exact iff_of_false nofun fun h => hnode h.1

/-- A bit completes a code: the child is a leaf, its symbol the one completed. -/
theorem walkStep_eq_leaf_iff {sym : Byte} : walkStep c node bit = some (next, some sym) ↔
    c.internalAt node.toNat = true ∧ child (c.treeNode node.toNat) bit = next ∧
      leafAt c next.toNat = true ∧ symbolAt c next.toNat = sym := by
  simp only [walkStep]
  split_ifs with hnode hout htag
  · refine iff_of_false nofun ?_
    rintro ⟨-, rfl, hleaf, -⟩
    exact Nat.not_lt.2 hout (leafAt_iff.1 hleaf).1
  · refine iff_of_false nofun ?_
    rintro ⟨-, rfl, hleaf, -⟩
    rw [(leafAt_iff.1 hleaf).2] at htag
    cases htag
  · simp only [hnode, true_and, Option.some.injEq, Prod.mk.injEq]
    refine and_congr_right ?_
    rintro rfl
    exact (and_iff_right (leafAt_iff.2 ⟨Nat.not_le.1 hout, Bool.eq_false_iff.2 htag⟩)).symm
  · exact iff_of_false nofun fun h => hnode h.1

end WalkStep

/-- A walk of two bit-strings: the second from where the first ends. -/
theorem decodeFrom_append (c : Config) (root node : Byte) (p q : Bits) :
    decodeFrom c root node (p ++ q) = (decodeFrom c root node p).bind fun x =>
      (decodeFrom c root x.2 q).map fun y => (x.1 ++ y.1, y.2) := by
  induction p generalizing node with
  | nil => simp [decodeFrom]
  | cons bit p ih =>
    rcases hs : walkStep c node bit with _ | ⟨next, _ | sym⟩
    · simp [decodeFrom, hs]
    · rw [List.cons_append, decodeFrom_cons_none hs, decodeFrom_cons_none hs, ih]
    · rw [List.cons_append, decodeFrom_cons_some hs, decodeFrom_cons_some hs, ih]
      cases decodeFrom c root root p <;> simp [Function.comp_def]

theorem decodeFrom_append_eq_some_iff {c : Config} {root node last : Byte} {p q : Bits} {syms : List Byte} :
    decodeFrom c root node (p ++ q) = some (syms, last) ↔ ∃ syms₁ mid syms₂,
      decodeFrom c root node p = some (syms₁, mid) ∧ decodeFrom c root mid q = some (syms₂, last) ∧
      syms₁ ++ syms₂ = syms := by
  simp [decodeFrom_append, Option.bind_eq_some_iff]

theorem follow_cons_eq_some_iff {c : Config} {i j : Nat} {bit : Bool} {rest : Bits} :
    follow c i (bit :: rest) = some j ↔
      c.internalAt i = true ∧ follow c (childAt c i bit) rest = some j := by
  simp [follow]

/-- The walk of a path from a node down to a leaf completes the leaf's symbol and returns to the root. -/
theorem decodeFrom_of_follow_leaf {c : Config} {root node : Byte} {path : Bits} {i : Nat} (hne : path ≠ [])
    (hpath : follow c node.toNat path = some i) (hleaf : leafAt c i = true) :
    decodeFrom c root node path = some ([symbolAt c i], root) := by
  induction path generalizing node with
  | nil => exact absurd rfl hne
  | cons bit rest ih =>
    obtain ⟨hnode, hrest⟩ := follow_cons_eq_some_iff.1 hpath
    cases rest with
    | nil =>
      cases hrest
      rw [decodeFrom_cons_some (walkStep_eq_leaf_iff.2 ⟨hnode, rfl, hleaf, rfl⟩)]
      rfl
    | cons bit' rest' =>
      have hnext := (follow_cons_eq_some_iff.1 hrest).1
      rw [decodeFrom_cons_none (walkStep_eq_internal_iff.2 ⟨hnode, rfl, hnext⟩)]
      exact ih (List.cons_ne_nil _ _) hrest

/-! ### Codes and texts (R95, R112) -/

theorem TreeWF.internalAt_root {c : Config} {r : Nat} (h : TreeWF c r) : c.internalAt r = true := by
  obtain ⟨V, hV⟩ := h
  exact internalAt_iff.2 ⟨hV.bounded r hV.root_mem, hV.root_internal⟩

/-- The code of a symbol that has one is the path to its leaf (R112). -/
theorem CodeTreeConsistent.path_of_hasCode {c : Config} {r : Nat} (h : CodeTreeConsistent c r) {t : Byte}
    (ht : t.toNat < c.k) (hcode : c.hasCode t.toNat = true) :
    ∃ i, follow c r (symbolBits c t.toNat) = some i ∧ leafAt c i = true ∧ symbolAt c i = t := by
  have hpos : c.codeLen t.toNat ≠ 0 := Nat.one_le_iff_ne_zero.1 (hasCode_iff.1 hcode).1
  obtain ⟨bits, i, hpath, hleaf, hsym⟩ := not_not.1 (mt (h.absent t.toNat ht) hpos)
  obtain ⟨-, hbits⟩ := h.code bits i hpath hleaf (hsym ▸ ht)
  rw [hsym] at hbits
  exact ⟨i, hbits ▸ hpath, hleaf, BitVec.eq_of_toNat_eq hsym⟩

/-- The walk of a symbol's code completes the symbol. -/
theorem CodeTreeConsistent.decodeFrom_symbolBits {c : Config} {r t : Byte}
    (h : CodeTreeConsistent c r.toNat) (ht : t.toNat < c.k) (hcode : c.hasCode t.toNat = true) :
    decodeFrom c r r (symbolBits c t.toNat) = some ([t], r) := by
  obtain ⟨i, hpath, hleaf, rfl⟩ := h.path_of_hasCode ht hcode
  refine decodeFrom_of_follow_leaf (fun hnil => ?_) hpath hleaf
  have hlen := symbolBits_length c (symbolAt c i).toNat
  rw [hnil, List.length_nil] at hlen
  exact absurd (hasCode_iff.1 hcode).1 (by omega)

theorem CodeTreeConsistent.decodeBits_encodeText {c : Config} {r : Byte} (h : CodeTreeConsistent c r.toNat)
    {text : List Byte} (hcode : ∀ t ∈ text, t.toNat < c.k ∧ c.hasCode t.toNat = true) :
    decodeBits c r (encodeText c text) = some (text, r) := by
  induction text with
  | nil => rfl
  | cons t text ih =>
    obtain ⟨⟨hk, hc⟩, hcode⟩ := List.forall_mem_cons.1 hcode
    rw [encodeText_cons]
    exact decodeFrom_append_eq_some_iff.2
      ⟨[t], r, text, h.decodeFrom_symbolBits hk hc, ih hcode, rfl⟩

/-! ### Walks that end at the root (R90, R110) -/

/-- The bits are the path from node `r` to a leaf. -/
def RootToLeaf (c : Config) (r : Nat) (path : Bits) : Prop :=
  ∃ i, follow c r path = some i ∧ leafAt c i = true

/-- No path leads back to the root. -/
theorem TreeWFOn.follow_ne_root {c : Config} {r i : Nat} {V : List Nat} {path : Bits} (hV : TreeWFOn c r V)
    (hi : i ∈ V) (hne : path ≠ []) : follow c i path ≠ some r := by
  induction path generalizing i with
  | nil => exact absurd rfl hne
  | cons bit rest ih =>
    intro hpath
    obtain ⟨hint, hrest⟩ := follow_cons_eq_some_iff.1 hpath
    obtain ⟨-, htag⟩ := internalAt_iff.1 hint
    cases rest with
    | nil => exact hV.root_no_parent i hi htag bit (Option.some.inj hrest)
    | cons bit' rest' => exact ih (hV.closed i hi htag bit) (List.cons_ne_nil _ _) hrest

section Tree

variable {c : Config} {r : Byte} (ht : TreeWF c r.toNat)
include ht

theorem TreeWF.rootToLeaf_ne_nil {path : Bits} (hp : RootToLeaf c r.toNat path) : path ≠ [] := by
  rintro rfl
  obtain ⟨i, hpath, hleaf⟩ := hp
  cases hpath
  have htag := (internalAt_iff.1 ht.internalAt_root).2
  rw [(leafAt_iff.1 hleaf).2] at htag
  cases htag

/-- The walk of whole codes ends at the root. -/
theorem TreeWF.decodeBits_flatten {paths : List Bits} (hpaths : ∀ p ∈ paths, RootToLeaf c r.toNat p) :
    ∃ syms, decodeBits c r paths.flatten = some (syms, r) := by
  induction paths with
  | nil => exact ⟨[], rfl⟩
  | cons p paths ih =>
    obtain ⟨hp, hpaths⟩ := List.forall_mem_cons.1 hpaths
    obtain ⟨syms, hrest⟩ := ih hpaths
    have hne := ht.rootToLeaf_ne_nil hp
    obtain ⟨i, hpath, hleaf⟩ := hp
    exact ⟨symbolAt c i :: syms, decodeFrom_append_eq_some_iff.2
      ⟨_, r, syms, decodeFrom_of_follow_leaf hne hpath hleaf, hrest, rfl⟩⟩

/-- A walk that ends at the root has walked whole codes; `pre` are the bits of the code it starts within. -/
theorem TreeWF.wholeCodes_of_decodeFrom {bits pre : Bits} {node : Byte} {syms : List Byte}
    (hpre : follow c r.toNat pre = some node.toNat) (hwalk : decodeFrom c r node bits = some (syms, r)) :
    ∃ paths : List Bits, pre ++ bits = paths.flatten ∧ ∀ p ∈ paths, RootToLeaf c r.toNat p := by
  induction bits generalizing pre node syms with
  | nil =>
    cases hwalk
    obtain ⟨V, hV⟩ := ht
    have hnil : pre = [] := not_not.1 fun hne => hV.follow_ne_root hV.root_mem hne hpre
    exact ⟨[], by rw [hnil]; rfl, by simp⟩
  | cons bit bits ih =>
    rcases hs : walkStep c node bit with _ | ⟨next, _ | sym⟩
    · simp [decodeFrom, hs] at hwalk
    · obtain ⟨hnode, rfl, -⟩ := walkStep_eq_internal_iff.1 hs
      rw [decodeFrom_cons_none hs] at hwalk
      obtain ⟨paths, hbits, hpaths⟩ := ih (follow_snoc bit hpre hnode) hwalk
      exact ⟨paths, by rw [← hbits, List.append_assoc, List.singleton_append], hpaths⟩
    · obtain ⟨hnode, rfl, hleaf, -⟩ := walkStep_eq_leaf_iff.1 hs
      rw [decodeFrom_cons_some hs] at hwalk
      obtain ⟨⟨syms', last⟩, hrest, heq⟩ := Option.map_eq_some_iff.1 hwalk
      cases heq
      obtain ⟨paths, hbits, hpaths⟩ := ih (pre := []) rfl hrest
      refine ⟨(pre ++ [bit]) :: paths, by simp [← hbits], List.forall_mem_cons.2 ⟨?_, hpaths⟩⟩
      exact ⟨_, follow_snoc bit hpre hnode, hleaf⟩

end Tree

/-! ### A whole decode session (R92) -/

/-- The effect of `DEC_END` does not depend on the waiting moves. -/
theorem closeDecode_setInp (s : State) (moves : List HostMove) :
    closeDecode (s.setInp moves) = (closeDecode s).setInp moves := by
  simp only [closeDecode, State.setInp_first]
  split_ifs <;> rfl

theorem closeDecode_inp (s : State) : (closeDecode s).inp = s.inp := by
  simp only [closeDecode]
  split_ifs <;> rfl

namespace Sends

variable {s : State}

theorem decBegin {r : Byte} (hm : s.mode = .idle) (hr : s.cfg.internalAt r.toNat = true) :
    Sends [.decBegin r] s (openDecode r s) := by
  refine command rfl (decode_decBegin_beat r) (by simp [hm]) (fun moves => ?_) rfl
  rw [exec_decBegin_of_idle (s := s.setInp moves) hm, beginDecode_of_internal (s := s.setInp moves) hr]
  rfl

theorem decByte {b last : Byte} {syms : List Byte} (hm : s.mode = .dec)
    (hwalk : decodeFrom s.cfg s.root s.node (payloadOf s b).1 = some (syms, last)) :
    Sends [.decByte b] s ((s.received (payloadOf s b).2).walked syms last) :=
  command rfl (decode_decByte_beat b) (by simp [hm])
    (fun moves => exec_decByte_of_decodeFrom (s := s.setInp moves) hm hwalk) rfl

theorem decEnd (hm : s.mode = .dec) : Sends [.decEnd] s (closeDecode s) := by
  refine command rfl rfl (by simp [hm]) (fun moves => ?_) (closeDecode_inp s)
  rw [exec_decEnd_of_dec (s := s.setInp moves) hm, closeDecode_setInp]

end Sends

theorem decodeProgram_length (r : Byte) (bytes : List Byte) :
    (decodeProgram r bytes).length = bytes.length + 2 := by
  simp [decodeProgram]

/-- Bytes after the first are walked one after another. -/
theorem sends_later_bytes {s : State} {bytes : List Byte} {syms : List Byte} {last : Byte}
    (hm : s.mode = .dec) (hfirst : s.first = false)
    (hwalk : decodeFrom s.cfg s.root s.node (streamBits bytes) = some (syms, last)) :
    Sends (bytes.map .decByte) s (s.walked syms last) := by
  induction bytes generalizing s syms with
  | nil =>
    cases hwalk
    rw [walked_nil]
    exact .nil s
  | cons b bytes ih =>
    rw [streamBits_cons] at hwalk
    obtain ⟨syms₁, mid, syms₂, hbyte, hrest, rfl⟩ := decodeFrom_append_eq_some_iff.1 hwalk
    have hpayload : payloadOf s b = (bitsOf b, false) := payloadOf_of_not_first hfirst
    have hsend := Sends.decByte (b := b) hm (by rw [hpayload]; exact hbyte)
    rw [hpayload, received_of_not_first hfirst] at hsend
    rw [← walked_walked]
    exact hsend.append (ih (s := s.walked syms₁ mid) hm hfirst hrest)

section Session

variable {s : State} {r : Byte} (hidle : s.mode = .idle) (hr : s.cfg.internalAt r.toNat = true)
include hidle hr

/-- A stream whose payload is walked whole emits its symbols and is closed. -/
theorem sends_decodeProgram {bytes : List Byte} {bits : Bits} {corrupt : Bool} {syms : List Byte} {last : Byte}
    (hunpack : unpack bytes = some (bits, corrupt)) (hwalk : decodeBits s.cfg r bits = some (syms, last)) :
    Sends (decodeProgram r bytes) s
      (closeDecode (((openDecode r s).received corrupt).walked syms last)) := by
  cases bytes with
  | nil => cases hunpack
  | cons b bytes =>
    rw [unpack_cons] at hunpack
    cases hunpack
    obtain ⟨syms₁, mid, syms₂, hhead, hrest, rfl⟩ := decodeFrom_append_eq_some_iff.1 hwalk
    have hfirst : Sends [.decByte b] (openDecode r s)
        (((openDecode r s).received (padDetect b).2).walked syms₁ mid) := Sends.decByte rfl hhead
    have hlater := sends_later_bytes
      (s := ((openDecode r s).received (padDetect b).2).walked syms₁ mid) rfl rfl hrest
    rw [walked_walked] at hlater
    exact (Sends.decBegin hidle hr).append (hfirst.append (hlater.append (Sends.decEnd rfl)))

/-- A session without a byte raises `DecEmpty`. -/
theorem sends_decodeProgram_nil :
    Sends (decodeProgram r []) s (raise .decEmpty (openDecode r s)) := by
  have hend := Sends.decEnd (s := openDecode r s) rfl
  rw [closeDecode_of_first rfl] at hend
  exact (Sends.decBegin hidle hr).append hend

end Session

/-- The registers and the beats of a decode session that is closed (R91, R92). -/
theorem closeDecode_session (s : State) (r : Byte) (corrupt : Bool) (syms : List Byte) (last : Byte) :
    closeDecode (((openDecode r s).received corrupt).walked syms last) =
      { s with
        mode := .idle, root := r, node := last, first := false, corruptPad := corrupt,
        midcode := decide (last ≠ r),
        out := s.out ++ syms.map (fun u => ⟨.sym, u⟩) ++
          [⟨.done, BitVec.ofNat 8 (corrupt.toNat + 2 * (decide (last ≠ r)).toNat)⟩] } := by
  rw [closeDecode_eq rfl, statusByte_eq]
  rfl

end Sys2Proof.Machine

/-! ### The statements about the decoder settled -/

namespace Sys2Proof

open Sys2Proof.Machine

/-- Settles O47, by induction on the text: the code of a symbol is the path to its leaf. -/
theorem decodeOfEncodedText : Obligations.DecodeOfEncodedText :=
  fun _ _ _ h hcode => h.decodeBits_encodeText hcode

/-- Settles O45: the run of `DEC_BEGIN`, the bytes and `DEC_END`. -/
theorem decodeSession : Obligations.DecodeSession := by
  refine ⟨fun s r bytes bits corrupt syms last hidle hr hunpack hwalk => ?_, fun s r hidle hr => ?_⟩
  · have hrun := (sends_decodeProgram hidle hr hunpack hwalk).run
    rw [decodeProgram_length] at hrun
    rw [hrun, closeDecode_session, hidle]
  · exact ⟨_, (sends_decodeProgram_nil hidle hr).run, rfl, rfl⟩

/-- Settles O48: the encode session packs the text's code bits, and the decode session unpacks and walks them. -/
theorem roundTrip : Obligations.RoundTrip := by
  intro s r text hidle hcons hcode hfit
  have henc := (sends_encodeProgram hidle hcode hfit).run
  rw [encodeProgram_length, closeEncode_encoding] at henc
  refine ⟨pack (encodeText s.cfg text), _, _, henc, (List.append_assoc _ _ _).symm,
    decodeSession.1 _ r _ _ _ _ _ rfl hcons.tree.internalAt_root (unpack_pack _)
      (hcons.decodeBits_encodeText hcode), ?_, rfl, ?_⟩
  · simp
  · simp

/-- Settles O50: whole codes are walked back to the root; a walk within a code is elsewhere, since the root is
no child. -/
theorem endsAtRootIffWholeCodes : Obligations.EndsAtRootIffWholeCodes := by
  intro c r bits syms last ht hwalk
  constructor
  · rintro rfl
    exact ht.wholeCodes_of_decodeFrom (pre := []) rfl hwalk
  · rintro ⟨paths, rfl, hpaths⟩
    obtain ⟨syms', hroot⟩ := ht.decodeBits_flatten hpaths
    rw [hwalk] at hroot
    cases hroot
    rfl

end Sys2Proof

/-! ### Walks inside a well-formed tree (R110, R128) -/

namespace Sys2Proof.Machine

/-- `node` is an internal node reached from `r`: what the walk pointer is in a session on the tree at `r`. -/
def InternalBelow (c : Config) (r node : Nat) : Prop :=
  (∃ bits, follow c r bits = some node) ∧ c.internalAt node = true

theorem TreeWF.internalBelow_root {c : Config} {r : Nat} (ht : TreeWF c r) : InternalBelow c r r :=
  ⟨⟨[], rfl⟩, ht.internalAt_root⟩

/-- What is reached from a node of the tree is in the tree: its clause (2) along a path. -/
theorem TreeWFOn.mem_of_follow {c : Config} {r i j : Nat} {V : List Nat} {path : Bits} (hV : TreeWFOn c r V)
    (hi : i ∈ V) (hpath : follow c i path = some j) : j ∈ V := by
  induction path generalizing i with
  | nil => cases hpath; exact hi
  | cons bit rest ih =>
    obtain ⟨hint, hrest⟩ := follow_cons_eq_some_iff.1 hpath
    exact ih (hV.closed i hi (internalAt_iff.1 hint).2 bit) hrest

/-- One bit walked in a tree: an internal node of the tree, or a completed symbol. -/
theorem TreeWF.walkStep_cases {c : Config} {r : Nat} {node : Byte} (ht : TreeWF c r)
    (hnode : InternalBelow c r node.toNat) (bit : Bool) :
    (∃ next, walkStep c node bit = some (next, none) ∧ InternalBelow c r next.toNat) ∨
    (∃ next sym, walkStep c node bit = some (next, some sym)) := by
  obtain ⟨V, hV⟩ := ht
  obtain ⟨⟨path, hpath⟩, hint⟩ := hnode
  have hchild : follow c r (path ++ [bit]) = some (childAt c node.toNat bit) := follow_snoc bit hpath hint
  have hlt : childAt c node.toNat bit < c.nodes := hV.bounded _ (hV.mem_of_follow hV.root_mem hchild)
  cases htag : nodeTag (c.treeNode (childAt c node.toNat bit)) with
  | true =>
    have hnext := internalAt_iff.2 ⟨hlt, htag⟩
    exact .inl ⟨_, walkStep_eq_internal_iff.2 ⟨hint, rfl, hnext⟩, ⟨_, hchild⟩, hnext⟩
  | false => exact .inr ⟨_, _, walkStep_eq_leaf_iff.2 ⟨hint, rfl, leafAt_iff.2 ⟨hlt, htag⟩, rfl⟩⟩

/-- Every walk in a tree completes, at an internal node of the tree. -/
theorem TreeWF.decodeFrom_completes {c : Config} {root node : Byte} (ht : TreeWF c root.toNat)
    (hnode : InternalBelow c root.toNat node.toNat) (bits : Bits) :
    ∃ syms last, decodeFrom c root node bits = some (syms, last) ∧
      InternalBelow c root.toNat last.toNat := by
  induction bits generalizing node with
  | nil => exact ⟨[], node, rfl, hnode⟩
  | cons bit rest ih =>
    rcases ht.walkStep_cases hnode bit with ⟨next, hstep, hnext⟩ | ⟨next, sym, hstep⟩
    · rw [decodeFrom_cons_none hstep]
      exact ih hnext
    · obtain ⟨syms, last, hrest, hlast⟩ := ih ht.internalBelow_root
      exact ⟨sym :: syms, last, by rw [decodeFrom_cons_some hstep, hrest]; rfl, hlast⟩

/-! ### Paths to leaves (R111, R112) -/

/-- No path goes on below a leaf. -/
theorem follow_of_leaf {c : Config} {i j : Nat} {path : Bits} (hleaf : leafAt c i = true)
    (hpath : follow c i path = some j) : j = i := by
  cases path with
  | nil => cases hpath; rfl
  | cons bit rest =>
    have htag := (internalAt_iff.1 (follow_cons_eq_some_iff.1 hpath).1).2
    rw [(leafAt_iff.1 hleaf).2] at htag
    cases htag

/-- A symbol whose `LEN` is not 0 has its leaf at the end of its code (R112). -/
theorem CodeTreeConsistent.path_of_codeLen_ne_zero {c : Config} {r s : Nat} (h : CodeTreeConsistent c r)
    (hs : s < c.k) (hlen : c.codeLen s ≠ 0) :
    ∃ i, follow c r (symbolBits c s) = some i ∧ leafAt c i = true ∧ (symbolAt c i).toNat = s := by
  obtain ⟨bits, i, hpath, hleaf, rfl⟩ := not_not.1 (mt (h.absent s hs) hlen)
  obtain ⟨-, hbits⟩ := h.code bits i hpath hleaf hs
  exact ⟨i, by rw [hbits]; exact hpath, hleaf, rfl⟩

end Sys2Proof.Machine

/-! ### The statements about well-formed and consistent images settled -/

namespace Sys2Proof

open Sys2Proof.Machine

/-- Settles O49: the walk of the byte's payload completes at an internal node of the tree. -/
theorem noTreeFaultInTree : Obligations.NoTreeFaultInTree := by
  intro s b ht hm hpath hint
  obtain ⟨syms, last, hwalk, hlast, hlastInt⟩ := ht.decodeFrom_completes ⟨hpath, hint⟩ (payloadOf s b).1
  exact ⟨_, exec_decByte_of_decodeFrom hm hwalk, hm, rfl, hlast, hlastInt⟩

/-- Settles O51: a code that begins another ends at its leaf, where no path goes on. -/
theorem consistentIsPrefixFree : Obligations.ConsistentIsPrefixFree := by
  intro c r h s hs t ht hne hslen htlen hbegins
  obtain ⟨i, hpath, hleaf, rfl⟩ := h.path_of_codeLen_ne_zero hs hslen
  obtain ⟨j, hpath', -, rfl⟩ := h.path_of_codeLen_ne_zero ht htlen
  obtain ⟨rest, hrest⟩ := hbegins
  rw [← hrest, follow_append hpath] at hpath'
  exact hne (by rw [follow_of_leaf hleaf hpath'])

end Sys2Proof

/-! ### The tree builder (R105, R106, R113) -/

namespace Sys2Proof.Machine

/-- The fields of an internal node's word, for children whose indices fit a field (R54). -/
theorem internalWord_fields {left right : Nat} (hl : left < 256) (hr : right < 256) :
    nodeTag (internalWord left right) = true ∧ (nodeA (internalWord left right)).toNat = left ∧
      (nodeB (internalWord left right)).toNat = right := by
  obtain ⟨htag, ha, hb⟩ := nodeFields true (BitVec.ofNat 8 left) (BitVec.ofNat 8 right)
  refine ⟨htag, ?_, ?_⟩
  · rw [show nodeA (internalWord left right) = _ from ha, BitVec.toNat_ofNat, Nat.mod_eq_of_lt hl]
  · rw [show nodeB (internalWord left right) = _ from hb, BitVec.toNat_ofNat, Nat.mod_eq_of_lt hr]

section MergeLoop

variable {P : Type} (pa : ProbArith P)

/-- `takeSmallest` takes one of the waiting nodes and leaves the others (R107). -/
theorem takeSmallest_perm {source target : List (Pending P)} (h : source ++ target ≠ []) :
    ∃ x source' target', takeSmallest pa source target = some (x, source', target') ∧
      (source ++ target).Perm (x :: (source' ++ target')) := by
  cases source with
  | nil =>
    cases target with
    | nil => exact absurd rfl h
    | cons t ts => exact ⟨t, [], ts, rfl, .refl _⟩
  | cons s ss =>
    cases target with
    | nil => exact ⟨s, ss, [], rfl, .refl _⟩
    | cons t ts =>
      simp only [takeSmallest]
      split_ifs
      · exact ⟨t, s :: ss, ts, rfl, List.perm_middle⟩
      · exact ⟨s, ss, t :: ts, rfl, .refl _⟩

/-- With two nodes waiting the loop merges two of them, `x` and `y`, into a new node (R106). -/
theorem mergeLoop_merge {source target : List (Pending P)} (h : 2 ≤ (source ++ target).length) :
    ∃ x y source' target', (source ++ target).Perm (x :: y :: (source' ++ target')) ∧
      ∀ fuel nodes, mergeLoop pa (fuel + 1) source target nodes =
        mergeLoop pa fuel source'
          (target' ++ [⟨pa.add x.probability y.probability, nodes.length⟩])
          (nodes ++ [internalWord x.index y.index]) := by
  obtain ⟨x, source₁, target₁, hx, hperm₁⟩ :=
    takeSmallest_perm pa (source := source) (target := target) (List.ne_nil_of_length_pos (by omega))
  have hlen := hperm₁.length_eq
  rw [List.length_cons] at hlen
  obtain ⟨y, source₂, target₂, hy, hperm₂⟩ :=
    takeSmallest_perm pa (source := source₁) (target := target₁) (List.ne_nil_of_length_pos (by omega))
  refine ⟨x, y, source₂, target₂, hperm₁.trans (hperm₂.cons x), fun fuel nodes => ?_⟩
  rw [mergeLoop, hx]
  · simp only [hy]
  · rintro t rfl rfl
    simp at h

/-- The merges that lead from the waiting indices `pending` to one root, as (left child, right child), the first
of them making the node at index `made` (R106, R113). -/
inductive MergeRun : Nat → List Nat → List (Nat × Nat) → Prop
  | done (i : Nat) : MergeRun (i + 1) [i] []
  | merge {made x y : Nat} {pending rest : List Nat} {merges : List (Nat × Nat)}
      (hperm : pending.Perm (x :: y :: rest)) (hx : x < made) (hy : y < made)
      (hrest : MergeRun (made + 1) (rest ++ [made]) merges) : MergeRun made pending ((x, y) :: merges)

/-- The children of a list of merges, in order. -/
def mergeChildren (merges : List (Nat × Nat)) : List Nat := merges.flatMap fun m => [m.1, m.2]

/-- The words of a list of merges, in order. -/
def mergeWords (merges : List (Nat × Nat)) : List NodeWord := merges.map fun m => internalWord m.1 m.2

namespace MergeRun

variable {made : Nat} {pending : List Nat} {merges : List (Nat × Nat)}

theorem length_eq (h : MergeRun made pending merges) : merges.length + 1 = pending.length := by
  induction h with
  | done => rfl
  | merge hperm _ _ _ ih => rw [hperm.length_eq]; simpa using ih

/-- The children of a merge were made before it. -/
theorem lt (h : MergeRun made pending merges) {j : Nat} {m : Nat × Nat} (hm : merges[j]? = some m) :
    m.1 < made + j ∧ m.2 < made + j := by
  induction h generalizing j with
  | done => cases hm
  | merge _ hx hy _ ih =>
    cases j with
    | zero => cases hm; exact ⟨hx, hy⟩
    | succ j => rw [Nat.add_comm j 1, ← Nat.add_assoc]; exact ih hm

/-- Every node waiting or made is the child of a merge once, but the root, the node made last. -/
theorem children_perm (h : MergeRun made pending merges) :
    (mergeChildren merges ++ [made + merges.length - 1]).Perm
      (pending ++ List.range' made merges.length) := by
  induction h with
  | done => exact .refl _
  | @merge made x y pending rest merges hperm _ _ _ ih =>
    have hroot : made + (merges.length + 1) - 1 = made + 1 + merges.length - 1 := by omega
    calc mergeChildren ((x, y) :: merges) ++ [made + (merges.length + 1) - 1]
      _ = x :: y :: (mergeChildren merges ++ [made + 1 + merges.length - 1]) := by rw [hroot]; rfl
      List.Perm _ (x :: y :: (rest ++ [made] ++ List.range' (made + 1) merges.length)) := (ih.cons y).cons x
      _ = x :: y :: rest ++ List.range' made (merges.length + 1) := by simp [List.range'_succ]
      List.Perm _ (pending ++ List.range' made (merges.length + 1)) := hperm.symm.append_right _

/-- From the indices below `n`, the children are all indices below the root's. -/
theorem children_perm_range {n : Nat} (h : MergeRun n (List.range n) merges) :
    (mergeChildren merges).Perm (List.range (n + merges.length - 1)) := by
  have hcount := h.length_eq
  rw [List.length_range] at hcount
  have hmade := List.range'_append_1 (s := 0) (m := n) (n := merges.length)
  rw [Nat.zero_add, ← List.range_eq_range', ← List.range_eq_range',
    show n + merges.length = (n + merges.length - 1) + 1 by omega, List.range_succ] at hmade
  have hperm := h.children_perm
  rw [hmade] at hperm
  exact (List.perm_append_right_iff _).1 hperm

end MergeRun

/-- The loop is at its end, the last made node waiting alone, or it can merge. -/
def Mergeable (made : Nat) (source target : List (Pending P)) : Prop :=
  (source = [] ∧ ∃ t, target = [t] ∧ t.index + 1 = made) ∨ 2 ≤ (source ++ target).length

/-- After a merge the new node `t` waits behind the others: alone, it is the root (R106). -/
theorem mergeable_snoc (source target : List (Pending P)) (t : Pending P) :
    Mergeable (t.index + 1) source (target ++ [t]) := by
  by_cases hnil : source ++ target = []
  · obtain ⟨rfl, rfl⟩ := List.append_eq_nil_iff.1 hnil
    exact .inl ⟨rfl, t, rfl, rfl⟩
  · have hpos := List.length_pos_iff.2 hnil
    exact .inr (by rw [← List.append_assoc, List.length_append, List.length_singleton]; omega)

/-- A node waiting alone ends the loop without a merge. -/
theorem mergeLoop_run_of_single (fuel : Nat) {t : Pending P} {nodes : List NodeWord}
    (hlast : t.index + 1 = nodes.length) :
    ∃ merges, MergeRun nodes.length [t.index] merges ∧ mergeLoop pa fuel [] [t] nodes =
      some (nodes.length + merges.length - 1, nodes ++ mergeWords merges) := by
  refine ⟨[], hlast ▸ .done t.index, ?_⟩
  rw [← hlast, mergeWords, List.map_nil, List.append_nil]
  cases fuel <;> rfl

/-- The loop runs to one root, the node made last, and adds the words of its merges (R106). -/
theorem mergeLoop_run {fuel : Nat} {source target : List (Pending P)} {nodes : List NodeWord}
    (hfuel : (source ++ target).length ≤ fuel + 1) (hopen : Mergeable nodes.length source target)
    (hindex : ∀ t ∈ source ++ target, t.index < nodes.length) :
    ∃ merges, MergeRun nodes.length ((source ++ target).map (·.index)) merges ∧
      mergeLoop pa fuel source target nodes =
        some (nodes.length + merges.length - 1, nodes ++ mergeWords merges) := by
  induction fuel generalizing source target nodes with
  | zero =>
    obtain ⟨rfl, t, rfl, hlast⟩ := hopen.resolve_right (by omega)
    exact mergeLoop_run_of_single pa 0 hlast
  | succ fuel ih =>
    rcases hopen with ⟨rfl, t, rfl, hlast⟩ | htwo
    · exact mergeLoop_run_of_single pa (fuel + 1) hlast
    · obtain ⟨x, y, source', target', hperm, hmerge⟩ := mergeLoop_merge pa htwo
      have hlen := hperm.length_eq
      rw [List.length_cons, List.length_cons] at hlen
      simp only [hperm.mem_iff, List.forall_mem_cons] at hindex
      obtain ⟨hx, hy, hrest⟩ := hindex
      let new : Pending P := ⟨pa.add x.probability y.probability, nodes.length⟩
      have hnew : source' ++ (target' ++ [new]) = source' ++ target' ++ [new] := (List.append_assoc ..).symm
      obtain ⟨merges, hrun, hloop⟩ := ih (source := source') (target := target' ++ [new])
        (nodes := nodes ++ [internalWord x.index y.index])
        (by rw [hnew, List.length_append, List.length_singleton]; omega)
        (by rw [List.length_append]; exact mergeable_snoc source' target' new)
        (by
          rw [hnew, List.length_append, List.length_singleton]
          exact List.forall_mem_append.2
            ⟨fun t ht => Nat.lt_succ_of_lt (hrest t ht), List.forall_mem_singleton.2 (Nat.lt_succ_self _)⟩)
      rw [hnew, List.map_append, List.length_append] at hrun
      refine ⟨(x.index, y.index) :: merges, .merge (hperm.map _) hx hy hrun, ?_⟩
      rw [hmerge, hloop]
      simp [mergeWords]

theorem zipIdx_pending_index {α : Type} (table : List α) (f : α × Nat → P) :
    (table.zipIdx.map fun e => (⟨f e, e.2⟩ : Pending P)).map (·.index) = List.range table.length := by
  rw [List.map_map, List.range_eq_range', ← List.zipIdx_map_snd]
  rfl

/-- `buildTree` as its leaves and the words of its merges (R105, R106, R113). -/
theorem buildTree_run {table : List (SymbolFrequency P)} (h : 2 ≤ table.length) :
    ∃ merges, MergeRun table.length (List.range table.length) merges ∧
      buildTree pa table = some (2 * table.length - 2,
        (table.map fun e => leafWord (e.symbol.getD 0)) ++ mergeWords merges) := by
  have hindices := zipIdx_pending_index table fun e => e.1.probability
  set source : List (Pending P) := table.zipIdx.map fun e => ⟨e.1.probability, e.2⟩ with hsource
  have hlen : source.length = table.length := by simp [hsource]
  have hlt : ∀ t ∈ source ++ [], t.index < (table.map fun e => leafWord (e.symbol.getD 0)).length := by
    intro t ht
    have hmem := List.mem_map_of_mem (f := Pending.index) ht
    rw [List.append_nil, hindices, List.mem_range] at hmem
    simpa using hmem
  obtain ⟨merges, hrun, hloop⟩ := mergeLoop_run pa (fuel := table.length) (source := source) (target := [])
    (nodes := table.map fun e => leafWord (e.symbol.getD 0)) (by simp [hlen])
    (.inr (by simpa [hlen] using h)) hlt
  rw [List.append_nil, hindices, List.length_map] at hrun
  have hcount := hrun.length_eq
  rw [List.length_range] at hcount
  refine ⟨merges, hrun, ?_⟩
  rw [buildTree, if_neg (by omega), ← hsource, hloop, List.length_map]
  congr 2
  omega

end MergeLoop

theorem mergeWords_length (merges : List (Nat × Nat)) : (mergeWords merges).length = merges.length :=
  List.length_map _

section Words

variable {made : Nat} {pending : List Nat} {merges : List (Nat × Nat)} (h : MergeRun made pending merges)
  (hfit : made + merges.length ≤ 256)
include h hfit

/-- With at most 256 nodes the index of a child fits its field. -/
theorem MergeRun.fields {j : Nat} {m : Nat × Nat} (hm : merges[j]? = some m) :
    nodeTag (internalWord m.1 m.2) = true ∧ (nodeA (internalWord m.1 m.2)).toNat = m.1 ∧
      (nodeB (internalWord m.1 m.2)).toNat = m.2 := by
  obtain ⟨hl, hr⟩ := h.lt hm
  obtain ⟨hlt, -⟩ := List.getElem?_eq_some_iff.1 hm
  exact internalWord_fields (by omega) (by omega)

theorem MergeRun.children_mergeWords :
    ((mergeWords merges).flatMap fun w => [(nodeA w).toNat, (nodeB w).toNat]) = mergeChildren merges := by
  rw [mergeWords, List.flatMap_map, mergeChildren]
  refine List.flatMap_congr fun m hm => ?_
  obtain ⟨j, hj⟩ := List.getElem?_of_mem hm
  obtain ⟨-, ha, hb⟩ := h.fields hfit hj
  rw [ha, hb]

/-- The words of the merges are internal nodes whose children were made before them. -/
theorem MergeRun.getElem?_mergeWords {j : Nat} {w : NodeWord} (hw : (mergeWords merges)[j]? = some w) :
    nodeTag w = true ∧ (nodeA w).toNat < made + j ∧ (nodeB w).toNat < made + j := by
  rw [mergeWords, List.getElem?_map] at hw
  obtain ⟨m, hm, rfl⟩ := Option.map_eq_some_iff.1 hw
  obtain ⟨htag, ha, hb⟩ := h.fields hfit hm
  rw [ha, hb]
  exact ⟨htag, h.lt hm⟩

end Words

end Sys2Proof.Machine

namespace Sys2Proof

open Sys2Proof.Machine

/-- Settles O60: the words are the leaves of the entries and the internal nodes of a run of merges. -/
theorem treeBuilderLayout : Obligations.TreeBuilderLayout := by
  intro P pa table h
  obtain ⟨merges, hrun, hbuild⟩ := buildTree_run pa h
  have hcount := hrun.length_eq
  rw [List.length_range] at hcount
  refine ⟨_, hbuild, ?_, fun i t p hi => ?_, fun h128 => ⟨fun j w hj hw => ?_, ?_⟩⟩
  · rw [List.length_append, List.length_map, mergeWords_length]
    omega
  · rw [List.getElem?_append_left, List.getElem?_map, hi]
    · rfl
    · rw [List.length_map]
      exact (List.getElem?_eq_some_iff.1 hi).1
  · rw [List.getElem?_append_right (by simpa using hj), List.length_map] at hw
    have hword := hrun.getElem?_mergeWords (by omega) hw
    rwa [Nat.add_sub_cancel' hj] at hword
  · rw [List.drop_left' (List.length_map _), hrun.children_mergeWords (by omega)]
    have hroot : table.length + merges.length - 1 = 2 * table.length - 2 := by omega
    exact hroot ▸ hrun.children_perm_range

end Sys2Proof

/-! ### The order of entries with exact arithmetic (R102) -/

namespace Sys2Proof.Machine

/-- What R102 orders entries by: the probability, then the ordinal, the null marker last. -/
def SymbolFrequency.rank (x : SymbolFrequency Rat) : Rat ×ₗ WithTop Nat :=
  toLex (x.probability, x.symbol.elim ⊤ (↑))

theorem SymbolFrequency.before_exact_iff (x y : SymbolFrequency Rat) :
    x.before exactArith y = true ↔ x.rank < y.rank := by
  obtain ⟨s, p⟩ := x
  obtain ⟨t, q⟩ := y
  rw [rank, rank, Prod.Lex.toLex_lt_toLex]
  cases s <;> cases t <;> simp [before, exactArith]

theorem SymbolFrequency.rank_injective : Function.Injective SymbolFrequency.rank := by
  rintro ⟨s, p⟩ ⟨t, q⟩ h
  cases s <;> cases t <;> simp_all [rank]

theorem insertEntry_perm {P : Type} (pa : ProbArith P) (x : SymbolFrequency P)
    (l : List (SymbolFrequency P)) : (insertEntry pa x l).Perm (x :: l) := by
  induction l with
  | nil => exact .refl _
  | cons y l ih =>
    rw [insertEntry]
    split_ifs
    · exact .refl _
    · exact (ih.cons y).trans (.swap ..)

theorem sortEntries_perm {P : Type} (pa : ProbArith P) (entries : List (SymbolFrequency P)) :
    (sortEntries pa entries).Perm entries := by
  induction entries with
  | nil => exact .refl _
  | cons x entries ih => exact (insertEntry_perm pa x _).trans (ih.cons x)

/-- Insertion into entries strictly sorted by R102 keeps them so. -/
theorem insertEntry_pairwise {x : SymbolFrequency Rat} {l : List (SymbolFrequency Rat)} (hx : x ∉ l)
    (hl : l.Pairwise fun y z => y.rank < z.rank) :
    (insertEntry exactArith x l).Pairwise fun y z => y.rank < z.rank := by
  induction l with
  | nil => exact List.pairwise_singleton _ _
  | cons y l ih =>
    obtain ⟨hne, hx⟩ := not_or.1 (mt List.mem_cons.2 hx)
    obtain ⟨hy, hl'⟩ := List.pairwise_cons.1 hl
    rw [insertEntry]
    split_ifs with hlt
    · have hxy := (SymbolFrequency.before_exact_iff x y).1 hlt
      exact List.pairwise_cons.2
        ⟨List.forall_mem_cons.2 ⟨hxy, fun z hz => hxy.trans (hy z hz)⟩, hl⟩
    · have hyx : y.rank < x.rank := (lt_or_gt_of_ne (SymbolFrequency.rank_injective.ne hne)).resolve_left
        (mt (SymbolFrequency.before_exact_iff x y).2 hlt)
      refine List.pairwise_cons.2 ⟨fun z hz => ?_, ih hx hl'⟩
      rcases List.mem_cons.1 ((insertEntry_perm _ _ _).mem_iff.1 hz) with rfl | hz
      · exact hyx
      · exact hy z hz

theorem sortEntries_pairwise {entries : List (SymbolFrequency Rat)} (h : entries.Nodup) :
    (sortEntries exactArith entries).Pairwise fun x y => x.before exactArith y = true := by
  simp only [SymbolFrequency.before_exact_iff]
  induction entries with
  | nil => exact .nil
  | cons x entries ih =>
    obtain ⟨hx, h⟩ := List.nodup_cons.1 h
    exact insertEntry_pairwise (mt (sortEntries_perm _ _).mem_iff.1 hx) (ih h)

/-! ### The entries of a source (R100, R103) -/

/-- The entry of a symbol that occurs in the source (R100, R101). -/
def entryOf (source : List Byte) (t : Byte) : SymbolFrequency Rat :=
  ⟨some t.toNat, (source.count t : Rat) / source.length⟩

theorem entryOf_injective (source : List Byte) : Function.Injective (entryOf source) := by
  intro t u h
  exact BitVec.eq_of_toNat_eq (Option.some.inj (congrArg SymbolFrequency.symbol h))

/-- The number of times the symbol with ordinal `t` occurs. -/
theorem countP_toNat_eq_count (source : List Byte) (t : Byte) :
    source.countP (fun u => u.toNat == t.toNat) = source.count t := by
  refine List.countP_congr fun u _ => ?_
  simp [BitVec.toNat_inj]

theorem mem_countEntries {k : Nat} {source : List Byte} (hk : ∀ t ∈ source, t.toNat < k)
    (x : SymbolFrequency Rat) :
    x ∈ countEntries exactArith k source ↔ ∃ t ∈ source, entryOf source t = x := by
  simp only [countEntries, List.mem_filterMap, List.mem_range, Option.ite_none_left_eq_some,
    List.countP_eq_zero]
  constructor
  · rintro ⟨s, -, hcount, hx⟩
    obtain ⟨t, ht, rfl⟩ : ∃ t ∈ source, t.toNat = s := by simpa using hcount
    refine ⟨t, ht, ?_⟩
    rw [countP_toNat_eq_count] at hx
    exact Option.some.inj hx
  · rintro ⟨t, ht, rfl⟩
    refine ⟨t.toNat, hk t ht, fun hnone => hnone t ht (beq_self_eq_true _), ?_⟩
    rw [countP_toNat_eq_count]
    rfl

theorem countEntries_nodup {P : Type} (pa : ProbArith P) (k : Nat) (source : List Byte) :
    (countEntries pa k source).Nodup := by
  refine List.Nodup.filterMap (fun s s' x hs hs' => ?_) List.nodup_range
  simp only [Option.mem_def, Option.ite_none_left_eq_some, Option.some.injEq] at hs hs'
  exact Option.some.inj (congrArg SymbolFrequency.symbol (hs.2.trans hs'.2.symm))

/-- `countEntries` lists the entry of each symbol that occurs, once (R100). -/
theorem countEntries_perm {k : Nat} {source : List Byte} (hk : ∀ t ∈ source, t.toNat < k) :
    (countEntries exactArith k source).Perm (source.dedup.map (entryOf source)) := by
  refine (List.perm_ext_iff_of_nodup (countEntries_nodup _ k source)
    ((List.nodup_dedup source).map (entryOf_injective source))).2 fun x => ?_
  rw [mem_countEntries hk, List.mem_map]
  simp only [List.mem_dedup]

theorem sum_probability_entryOf {source : List Byte} (hne : source ≠ []) :
    ((source.dedup.map (entryOf source)).map (·.probability)).sum = 1 := by
  have hlen : (source.length : Rat) ≠ 0 := Nat.cast_ne_zero.2 (mt List.length_eq_zero_iff.1 hne)
  have hcount := congrArg (Nat.cast (R := Rat)) (List.sum_map_count_dedup_eq_length source)
  rw [Nat.cast_list_sum, List.map_map] at hcount
  calc ((source.dedup.map (entryOf source)).map (·.probability)).sum
    _ = (source.dedup.map fun t => (source.count t : Rat) * (source.length : Rat)⁻¹).sum := by
        rw [List.map_map]; rfl
    _ = source.length * (source.length : Rat)⁻¹ := by rw [List.sum_map_mul_right, ← hcount]; rfl
    _ = 1 := mul_inv_cancel₀ hlen

theorem dedup_eq_singleton_iff {source : List Byte} (hne : source ≠ []) {h : Byte} :
    source.dedup = [h] ↔ ∀ t ∈ source, t = h := by
  constructor
  · intro hdedup t ht
    rwa [← List.mem_dedup, hdedup, List.mem_singleton] at ht
  · intro hall
    rw [List.eq_replicate_of_mem hall, List.replicate_dedup (mt List.length_eq_zero_iff.1 hne)]

theorem length_dedup_le {k : Nat} {source : List Byte} (hk : ∀ t ∈ source, t.toNat < k) :
    source.dedup.length ≤ k := by
  have hnodup : (source.dedup.map BitVec.toNat).Nodup :=
    (List.nodup_dedup source).map fun _ _ => BitVec.eq_of_toNat_eq
  have hsub : source.dedup.map BitVec.toNat ⊆ List.range k := by
    intro n hn
    obtain ⟨t, ht, rfl⟩ := List.mem_map.1 hn
    exact List.mem_range.2 (hk t (List.mem_dedup.1 ht))
  simpa using (hnodup.subperm hsub).length_le

/-! ### The table of a source (R100 to R104) -/

theorem withSynthetic_of_length_ne_one {P : Type} (pa : ProbArith P) (k : Nat)
    {entries : List (SymbolFrequency P)} (h : entries.length ≠ 1) : withSynthetic pa k entries = entries := by
  unfold withSynthetic
  split
  · exact absurd rfl h
  · rfl

section Table

variable {k : Nat} {source : List Byte} (hne : source ≠ []) (hk : ∀ t ∈ source, t.toNat < k)
include hne hk

omit hk in
/-- The one symbol of a source has all the weight. -/
theorem entryOf_of_one {h : Byte} (hone : source.dedup = [h]) : entryOf source h = ⟨some h.toNat, 1⟩ := by
  have hlen : (source.length : Rat) ≠ 0 := Nat.cast_ne_zero.2 (mt List.length_eq_zero_iff.1 hne)
  have hcount : source.count h = source.length :=
    List.count_eq_length.2 fun t ht => ((dedup_eq_singleton_iff hne).1 hone t ht).symm
  rw [entryOf, hcount, div_self hlen]

/-- A source of one symbol: the synthetic entry, then the symbol's (R103). -/
theorem buildFrequencyTable_of_one {h : Byte} (hone : source.dedup = [h]) :
    buildFrequencyTable exactArith k source =
      some [⟨some ((h.toNat + 1) % k), 0⟩, ⟨some h.toNat, 1⟩] := by
  have hentries : countEntries exactArith k source = [⟨some h.toNat, 1⟩] := by
    have hperm := countEntries_perm hk
    rwa [hone, List.map_singleton, List.perm_singleton, entryOf_of_one hne hone] at hperm
  rw [buildFrequencyTable, if_neg (by simpa using hne), hentries]
  simp [withSynthetic, sortEntries, insertEntry, SymbolFrequency.before, exactArith]

/-- A source of several symbols: their entries (R100). -/
theorem buildFrequencyTable_of_several (hseveral : source.dedup.length ≠ 1) :
    ∃ table, buildFrequencyTable exactArith k source = some table ∧
      table.Perm (source.dedup.map (entryOf source)) ∧
      table.Pairwise fun x y => x.before exactArith y = true := by
  have hperm := countEntries_perm hk
  have hlen : (countEntries exactArith k source).length ≠ 1 := by
    rwa [hperm.length_eq, List.length_map]
  refine ⟨_, ?_, (sortEntries_perm exactArith _).trans hperm,
    sortEntries_pairwise (countEntries_nodup exactArith k source)⟩
  rw [buildFrequencyTable, if_neg (by simpa using hne), withSynthetic_of_length_ne_one _ _ hlen]

end Table

/-- The synthetic symbol of R103 is another one. -/
theorem successor_ne {k n : Nat} (hk : 2 ≤ k) (hn : n < k) : (n + 1) % k ≠ n := by
  rcases Nat.lt_or_ge (n + 1) k with hlt | hge
  · rw [Nat.mod_eq_of_lt hlt]
    omega
  · rw [show n + 1 = k by omega, Nat.mod_self]
    omega

end Sys2Proof.Machine

namespace Sys2Proof

open Sys2Proof.Machine

/-- Settles O59: a source of one symbol has the two entries of R103; any other has the entries of its
distinct symbols, sorted. -/
theorem frequencyTable : Obligations.FrequencyTable := by
  refine ⟨fun _ => rfl, fun k source hk2 hne hk => ?_⟩
  by_cases hlen : source.dedup.length = 1
  · obtain ⟨h, hone⟩ := List.length_eq_one_iff.1 hlen
    have hall := (dedup_eq_singleton_iff hne).1 hone
    have hmem : h ∈ source := List.mem_dedup.1 (hone ▸ List.mem_singleton_self h)
    have hentry := entryOf_of_one hne hone
    refine ⟨_, buildFrequencyTable_of_one hne hk hone, fun t ht => ?_, ?_, fun h' hall' => ?_,
      (if_pos hlen).symm, le_rfl, hk2, ?_, ?_, ?_, ?_⟩
    · obtain rfl := hall t ht
      exact hentry ▸ .tail _ (.head _)
    · exact List.forall_mem_cons.2 ⟨.inr ⟨h, hmem, hall, rfl⟩,
        List.forall_mem_singleton.2 (.inl ⟨h, hmem, hentry.symm⟩)⟩
    · rw [hall' h hmem]
    · simp [SymbolFrequency.before, exactArith]
    · simpa using successor_ne hk2 (hk h hmem)
    · exact List.forall_mem_cons.2 ⟨⟨_, Nat.mod_lt _ (by omega), rfl⟩,
        List.forall_mem_singleton.2 ⟨_, hk h hmem, rfl⟩⟩
    · simp
  · obtain ⟨table, hbuild, hperm, hsorted⟩ := buildFrequencyTable_of_several hne hk hlen
    have hcount : table.length = source.dedup.length := by rw [hperm.length_eq, List.length_map]
    have hpos : source.dedup.length ≠ 0 := by simpa using hne
    have hsource : ∀ x ∈ table, ∃ t ∈ source, entryOf source t = x := fun x hx => by
      simpa using hperm.mem_iff.1 hx
    refine ⟨table, hbuild, fun t ht => ?_, fun x hx => .inl ?_, fun h hall => ?_, ?_, ?_, ?_, hsorted, ?_,
      fun x hx => ?_, ?_⟩
    · exact hperm.mem_iff.2 (List.mem_map_of_mem (List.mem_dedup.2 ht))
    · obtain ⟨t, ht, rfl⟩ := hsource x hx
      exact ⟨t, ht, rfl⟩
    · exact absurd (congrArg List.length ((dedup_eq_singleton_iff hne).2 hall)) hlen
    · rw [if_neg hlen, hcount]
    · omega
    · exact hcount ▸ length_dedup_le hk
    · rw [(hperm.map _).nodup_iff, List.map_map]
      exact (List.nodup_dedup source).map fun t u h => BitVec.eq_of_toNat_eq (Option.some.inj h)
    · obtain ⟨t, ht, rfl⟩ := hsource x hx
      exact ⟨_, hk t ht, rfl⟩
    · rw [(hperm.map _).sum_eq, sum_probability_entryOf hne]

end Sys2Proof

/-! ### Faults (R120, R127, R132, R136) -/

namespace Sys2Proof.Machine

theorem eq_bufferOverflow_of_code {c : Cause} : c.code = Cause.code .bufferOverflow → c = .bufferOverflow := by
  cases c <;> decide

/-- What R136 asks of a step into mode `FAULT`: the code of a cause, and its `ERR` last on `OUT`. -/
def State.FaultEntered (s : State) : Prop :=
  s.mode = .fault ∧ ∃ c : Cause, s.faultCode = c.code ∧ s.out.getLast? = some ⟨.err, errData c⟩

theorem raise_faultEntered (c : Cause) (s : State) : (raise c s).FaultEntered :=
  ⟨rfl, c, rfl, List.getLast?_concat⟩

/-- A byte of the stream leaves `MODE` and `FAULT_CODE` as they are, or ends in `TreeFault` (R86). -/
theorem ByteTaken.goesOn_or_raises {s s' : State} (hb : ByteTaken s s') :
    (s'.mode = s.mode ∧ s'.faultCode = s.faultCode) ∨ ∃ u, s' = raise .treeFault u := by
  obtain ⟨_, _, -, -, ⟨_, _, -, rfl⟩ | ⟨_, _, _, _, _, -, -, -, -, rfl⟩⟩ := hb
  · exact .inl ⟨rfl, rfl⟩
  · exact .inr ⟨_, rfl⟩

/-- The moves that a beat can make between modes (R136). -/
theorem BeatEffect.mode_cases {b : Beat} {s s' : State} (he : BeatEffect b s s') (hne : s'.mode ≠ s.mode) :
    s.mode ≠ .fault ∧
      ((s.mode = .idle ∧ s'.mode = .enc ∧ decode b = .ok .encBegin) ∨
      (s.mode = .idle ∧ s'.mode = .dec ∧ ∃ r, decode b = .ok (.decBegin r)) ∨
      (s.mode = .enc ∧ s'.mode = .idle ∧ decode b = .ok .encEnd) ∨
      (s.mode = .dec ∧ s'.mode = .idle ∧ decode b = .ok .decEnd) ∨
      s'.FaultEntered) := by
  cases he with
  | discarded | encSym => exact absurd rfl hne
  | raised c hf => exact ⟨hf, .inr (.inr (.inr (.inr (raise_faultEntered c s))))⟩
  | encBegin hd hm => exact ⟨by simp [hm], .inl ⟨hm, rfl, hd⟩⟩
  | decBegin r hd hm => exact ⟨by simp [hm], .inr (.inl ⟨hm, rfl, r, hd⟩)⟩
  | encEnd hd hm => exact ⟨by simp [hm], .inr (.inr (.inl ⟨hm, rfl, hd⟩))⟩
  | decByte hm hbyte =>
    obtain ⟨hmode, -⟩ | ⟨u, rfl⟩ := hbyte.goesOn_or_raises
    · exact absurd hmode hne
    · exact ⟨by simp [hm], .inr (.inr (.inr (.inr (raise_faultEntered .treeFault u))))⟩
  | decEnd hd hm hfirst =>
    rw [closeDecode_of_not_first hfirst]
    exact ⟨by simp [hm], .inr (.inr (.inr (.inl ⟨hm, rfl, hd⟩)))⟩

/-! ### A buffer without a bound (R7, R127) -/

/-- `FAULT_CODE` does not say `BufferOverflow`. -/
def State.NotOverflowed (s : State) : Prop := s.faultCode ≠ Cause.code .bufferOverflow

theorem raise_notOverflowed (c : Cause) (s : State) (hc : c ≠ .bufferOverflow) : (raise c s).NotOverflowed :=
  fun hcode => hc (eq_bufferOverflow_of_code hcode)

section Unbounded

variable {s s' : State} (hcap : s.cfg.bitbufCap = none) (h : s.NotOverflowed)
include hcap h

/-- Of the effects only `ENC_SYM` compares with the capacity, and an unbounded one has room (R72). -/
theorem bodyOf_notOverflowed {i : Instr} (hs : bodyOf i s = .next s') : s'.NotOverflowed := by
  rcases bodyOf_cases hs with ⟨-, rfl⟩ | ⟨sym, -, ⟨c, -, rfl, hover⟩ | ⟨-, rfl⟩⟩ | ⟨-, rfl⟩ |
    ⟨r, -, ⟨-, rfl⟩ | rfl⟩ | ⟨-, hbyte⟩ | ⟨-, rfl⟩
  · exact h
  · exact raise_notOverflowed c s fun hc => hover hc hcap
  · exact h
  · exact h
  · exact h
  · exact raise_notOverflowed .treeFault s nofun
  · obtain ⟨-, hcode⟩ | ⟨u, rfl⟩ := hbyte.goesOn_or_raises
    · exact fun hover => h (hcode ▸ hover)
    · exact raise_notOverflowed .treeFault u nofun
  · cases hfirst : s.first with
    | true => rw [closeDecode_of_first hfirst]; exact raise_notOverflowed .decEmpty s nofun
    | false => rw [closeDecode_of_not_first hfirst]; exact h

theorem exec_notOverflowed {i : Instr} (hs : exec i s = .next s') : s'.NotOverflowed := by
  rcases exec_cases hs with ⟨-, rfl⟩ | ⟨-, -, rfl⟩ | ⟨-, hbody⟩
  · exact h
  · exact raise_notOverflowed .sequence s nofun
  · exact bodyOf_notOverflowed hcap h hbody

theorem step_notOverflowed (hs : step s = .next s') : s'.NotOverflowed := by
  rcases step_cases hs with ⟨-, rfl⟩ | ⟨rest, -, rfl⟩ |
    ⟨b, rest, -, ⟨-, rfl⟩ | ⟨-, -, rfl⟩ | ⟨-, i, -, hexec⟩⟩
  · exact h
  · exact (Cause.code_ne_zero .bufferOverflow).symm
  · exact h
  · exact raise_notOverflowed .illegalCommand _ nofun
  · exact exec_notOverflowed (s := s.setInp rest) hcap h hexec

end Unbounded

/-! ### The commands' own checks (R131) -/

section Checks

variable {s : State} {sym : Byte}

theorem exec_encSym_of_range (hm : s.mode = .enc) (hk : s.cfg.k ≤ sym.toNat) :
    exec (.encSym sym) s = .next (raise .symbolRange s) := by
  rw [exec_encSym_of_enc hm, appendSymbol_of_range hk]

theorem exec_encSym_of_noCode (hm : s.mode = .enc) (hk : sym.toNat < s.cfg.k)
    (hcode : s.cfg.hasCode sym.toNat = false) :
    exec (.encSym sym) s = .next (raise .invalidBitstring s) := by
  rw [exec_encSym_of_enc hm, appendSymbol_of_noCode hk hcode]

theorem exec_encSym_of_overflow (hm : s.mode = .enc) (hk : sym.toNat < s.cfg.k)
    (hcode : s.cfg.hasCode sym.toNat = true)
    (hfit : s.cfg.fits (s.bitbuf.length + s.cfg.codeLen sym.toNat) = false) :
    exec (.encSym sym) s = .next (raise .bufferOverflow s) := by
  rw [exec_encSym_of_enc hm, appendSymbol_of_overflow hk hcode hfit]

theorem exec_decBegin_of_not_internal {r : Byte} (hm : s.mode = .idle)
    (hr : s.cfg.internalAt r.toNat = false) : exec (.decBegin r) s = .next (raise .treeFault s) := by
  rw [exec_decBegin_of_idle hm, beginDecode_of_not_internal hr]

theorem exec_decEnd_of_first (hm : s.mode = .dec) (hfirst : s.first = true) :
    exec .decEnd s = .next (raise .decEmpty s) := by
  rw [exec_decEnd_of_dec hm, closeDecode_of_first hfirst]

end Checks

end Sys2Proof.Machine

/-! ### The statements about faults settled -/

namespace Sys2Proof

open Sys2Proof.Machine

/-- Settles O7: a reset ends in `IDLE`, and the effects of a beat that change the mode are those of R136. -/
theorem modeTransitions : Obligations.ModeTransitions := by
  intro s s' hs hne
  rcases step_effect hs with ⟨-, rfl⟩ | ⟨rest, hinp, rfl⟩ | ⟨b, rest, hinp, he⟩
  · exact absurd rfl hne
  · exact ⟨.rst, rest, hinp, .inl ⟨rfl, rfl⟩⟩
  · exact ⟨.beat b, rest, hinp, .inr ⟨b, rfl, he.mode_cases hne⟩⟩

/-- Settles O11: the one check that compares with the capacity passes when there is none. -/
theorem unboundedNeverOverflows : Obligations.UnboundedNeverOverflows := fun _ _ hcap hcode hs =>
  step_notOverflowed hcap hcode hs

/-- Settles O26: the mode check fails, and fault entry by `Sequence` is the state written out. -/
theorem wrongModeRaisesSequence : Obligations.WrongModeRaisesSequence := fun _ _ _ _ hf hm =>
  exec_of_wrong_mode rfl hf hm

/-- Settles O28: the step of a waiting beat in each case, the later checks where the earlier ones pass. -/
theorem checkOrder : Obligations.CheckOrder := by
  intro s b rest hinp
  have hexec {m : Mode} {i : Instr} {u : State} (hm : s.mode = m) (hf : m ≠ .fault) (hd : decode b = .ok i)
      (h : exec i (s.setInp rest) = .next u) : step s = .next u :=
    (step_of_decode hinp (hm ▸ hf) hd).trans h
  refine ⟨step_of_fault hinp, fun hf e hd => step_of_illegal hinp hf hd, fun hf i hd hm => ?_,
    fun hm sym hd hk => ?_, fun hm sym hd hk hcode => ?_, fun hm sym hd hk hcode hfit => ?_,
    fun hm r hd hr => ?_, fun hm x hd pre bit post syms node hbits hpre hnode hchild => ?_,
    fun hm hd hfirst => ?_⟩
  · exact hexec rfl hf hd (exec_of_wrong_mode rfl hf hm)
  · exact hexec hm nofun hd (exec_encSym_of_range hm hk)
  · exact hexec hm nofun hd (exec_encSym_of_noCode hm hk hcode)
  · exact hexec hm nofun hd (exec_encSym_of_overflow hm hk hcode hfit)
  · exact hexec hm nofun hd (exec_decBegin_of_not_internal hm hr)
  · exact hexec hm nofun hd (exec_decByte_of_outside (s := s.setInp rest) hm hbits hpre hnode hchild)
  · exact hexec hm nofun hd (exec_decEnd_of_first hm hfirst)

/-- Settles O24: fault entry is these four writes and nothing else. -/
theorem faultEntry : Obligations.FaultEntry := fun _ _ => rfl

/-- Settles O25, by reading off the table of R120. -/
theorem faultCodes : Obligations.FaultCodes := ⟨rfl, rfl, rfl, rfl, rfl, rfl, rfl, rfl, rfl, rfl⟩

/-- Settles O27: every mode check discards in mode `FAULT`, and so does the sequencer. -/
theorem faultModeDiscards : Obligations.FaultModeDiscards := fun _ hf =>
  ⟨fun _ => exec_of_fault hf, fun _ _ hinp => step_of_fault hinp hf⟩

end Sys2Proof

/-! ### Reset (R140, R141, R133) -/

namespace Sys2Proof.Machine

/-- Beats and waiting keep mode `FAULT`: a step that leaves it takes a waiting `rst` (R133, R136). -/
theorem inp_of_step_leaves_fault {s s' : State} (hf : s.mode = .fault) (hs : step s = .next s')
    (hleft : s'.mode ≠ .fault) : ∃ rest, s.inp = .rst :: rest := by
  rcases step_cases hs with ⟨-, rfl⟩ | ⟨rest, hinp, -⟩ | ⟨b, rest, -, ⟨-, rfl⟩ | ⟨hne, -⟩ | ⟨hne, -⟩⟩
  case inl => exact absurd hf hleft
  case inr.inl => exact ⟨rest, hinp⟩
  case inr.inr.inl => exact absurd hf hleft
  all_goals exact absurd hf hne

/-- Both flags clear is `STATUS = 0x00` (R20). -/
theorem statusByte_clear : statusByte false false = 0 := by decide

end Sys2Proof.Machine

/-! ### The statements about reset settled -/

namespace Sys2Proof

open Sys2Proof.Machine

/-- Settles O13: `rst` is `applyReset`, whose fields are read off, and no other move leaves mode `FAULT`. -/
theorem resetAtAnyTime : Obligations.ResetAtAnyTime := by
  refine ⟨fun s rest hinp => ⟨_, step_of_rst hinp, ?_⟩, fun s s' hf hs hleft => ?_⟩
  · simp
  · obtain ⟨rest, hinp⟩ := inp_of_step_leaves_fault hf hs hleft
    rw [hinp, List.head?_cons]

/-- Settles O1: the registers are the fields of `State.powerOn`, and `STATUS` is read off the two flags. -/
theorem resetRegisters : Obligations.ResetRegisters :=
  ⟨rfl, rfl, rfl, rfl, rfl, rfl, rfl, rfl, statusByte_clear, rfl, rfl, rfl⟩

end Sys2Proof

/-! ### The decoder and the encoder are inverse (R56, R60) -/

namespace Sys2Proof

/-- The beat of a command decodes to the command. -/
theorem decode_of_encode_eq_cmd {i : Instr} {b : Beat} (h : encode i = .cmd b) : decode b = .ok i := by
  cases i with
  | encBegin | encEnd | decEnd => cases h; rfl
  | encSym x | decBegin x | decByte x => cases h; simp [decode]
  | _ => cases h

/-- The byte of a header form is of that form. -/
theorem headerForm_of_encode_eq_hdr {i : Instr} {b : Byte} (h : encode i = .hdr b) : headerForm b = i := by
  cases i with
  | hdrPad1 p | hdrPad2 p | hdrPad3 p | hdrPad4 p | hdrPad5 p | hdrPad6 p | hdrPad7 p =>
    cases h
    revert p
    decide
  | hdrPad8 | hdrCorrupt => cases h; rfl
  | _ => cases h

/-- A beat is the command beat of its two fields. -/
theorem cmdBeat_of_fields {b : Beat} {op : BitVec 3} {arg : Byte} (h : beatOp b = op ∧ beatArg b = arg) :
    cmdBeat op arg = b := by
  obtain ⟨rfl, rfl⟩ := h
  exact beatOp_append_beatArg b

/-- A command is read from its own beat only. -/
theorem encode_of_decode {b : Beat} {i : Instr} (h : decode b = .ok i) : encode i = .cmd b := by
  obtain ⟨hencBegin, hencSym, hencEnd, hdecBegin, hdecByte, hdecEnd⟩ := decode_eq_ok_iff_fields b
  have hi := mem_beatCommands_of_decode h
  simp only [beatCommands, List.mem_cons, List.not_mem_nil, or_false] at hi
  rcases hi with rfl | rfl | rfl | rfl | rfl | rfl <;> refine congrArg Encoded.cmd (cmdBeat_of_fields ?_)
  · exact hencBegin.1 h
  · exact ⟨hencSym.1 h, rfl⟩
  · exact hencEnd.1 h
  · exact ⟨hdecBegin.1 h, rfl⟩
  · exact ⟨hdecByte.1 h, rfl⟩
  · exact hdecEnd.1 h

/-- The form of a byte, with its payload field, encodes to that byte. -/
theorem encode_headerForm : ∀ b : Byte, encode (headerForm b) = .hdr b := by decide

/-- Settles O16, by the format of the encoded word. -/
theorem decodeEncode : Obligations.DecodeEncode := by
  intro i
  cases hw : encode i with
  | cmd b => exact decode_of_encode_eq_cmd hw
  | hdr b => exact congrArg Except.ok (headerForm_of_encode_eq_hdr hw)

/-- Settles O17: a command fixes both fields of its beat, a header form every bit of its byte. -/
theorem encodeDecode : Obligations.EncodeDecode := by
  intro w i h
  cases w with
  | cmd b => exact encode_of_decode h
  | hdr b =>
    cases h
    exact encode_headerForm b

end Sys2Proof

/-! ### A walk with no start (log 8) -/

namespace Sys2Proof.Machine

theorem walkBit_of_not_internal {s : State} (bit : Bool) (hi : s.cfg.internalAt s.node.toNat = false) :
    walkBit bit s = .stuck := if_neg (Bool.eq_false_iff.1 hi)

/-- The first bit of a walk asks for an internal node. -/
theorem walkBits_of_not_internal {s : State} {bits : Bits} (hi : s.cfg.internalAt s.node.toNat = false)
    (hbits : bits ≠ []) : walkBits bits s = .stuck := by
  obtain ⟨bit, rest, rfl⟩ := List.exists_cons_of_ne_nil hbits
  rw [walkBits, walkBit_of_not_internal bit hi]

end Sys2Proof.Machine

/-! ### The model's choices settled (logs 3, 4, 5 and 8) -/

namespace Sys2Proof

open Sys2Proof.Machine

/-- Settles O14: waiting keeps the state, and `rst` is `applyReset`, which leaves the later moves. -/
theorem hostMoveConventions : Obligations.HostMoveConventions := by
  refine fun s => ⟨step_of_nil, fun rest hinp s' hs => ?_⟩
  cases (step_of_rst hinp).symm.trans hs
  simp

/-- Settles O39: the payload's first bit finds no internal node, in the state that took the header. -/
theorem walkOutsideTreeStops : Obligations.WalkOutsideTreeStops := by
  intro s b hm hi hbits
  rw [exec_decByte_of_dec hm,
    walkBits_of_not_internal (s := s.received (payloadOf s b).2) hi hbits]
  rfl

end Sys2Proof
